-- ==== Sys2Proof/Word.lean ====
section
/-!
DEFINITION. The word types of the machine and nothing else: a byte of memory or code, a 64-bit
address or general register, a 64-bit opmask register (spec rules R15, R16, R30).
-/

namespace Sys2Proof

/-- One byte of memory, the smallest addressable unit (R30). -/
abbrev Byte := BitVec 8

/-- A 64-bit linear address, general register or instruction pointer (R16, R17, R30). -/
abbrev Word64 := BitVec 64

/-- The number of byte addresses of the one address space (R30). -/
abbrev addressSpace : Nat := 2 ^ 64

end Sys2Proof
end

