-- ==== Sys2Proof/Config.lean ====
section
/-!
DEFINITION. What is fixed for a run: how much the state can hold, the record of launch parameters, all
of R5's among them (R5, R20, R21, R34, R37, R47, R161, R163), and the one free value (which of several
applicable faults is reported, R139).
-/

namespace Sys2Proof

/-- Bits the state holds for a vector register: R5's decided MAXVL (decision D2). How many of them the
machine has is the launch parameter `maxVl`. Log entry 20. -/
abbrev Config.vectorBits : Nat := 512

/-- Vector registers the state holds: R5's decided NVEC (decision D3). The machine has `nvec`. -/
abbrev Config.vectorCount : Nat := 32

/-- Opmask registers the state holds: R5's decided NK (decision D4). The machine has `nk`. -/
abbrev Config.maskCount : Nat := 8

/-- Bits the state holds for an opmask register: R5's decided KW (decision D4). The machine has `kw`. -/
abbrev Config.maskBits : Nat := 64

/-- Number of general registers (R16, decision D28). -/
abbrev Config.NGPR : Nat := 16

/-- Longest instruction that executes, in bytes (R71, decision D20). -/
abbrev Config.maxInstrLength : Nat := 15

/-- The free value of R139 (U8, decision D19): which of several applicable faults of one priority
line is reported. It has no body, so nothing can be proved of it; it is applied to the state's
plain-data field `draw` and to the address of the instruction, and only where two or more faults
apply. Log entry 5. -/
opaque Config.freePick : Nat → Word64 → Nat

/-- A fault the platform predicate can answer for a data read (R34). The page-fault code is the
platform's; its width is PRESUMED (log entry 7). -/
inductive MemFault where
  | pageFault (code : BitVec 32)
  | generalProtection
  | stackFault
  deriving DecidableEq, Repr

/-- A fault the platform predicate can answer for an instruction fetch (R47). -/
inductive FetchFault where
  | pageFault (code : BitVec 32)
  | generalProtection
  deriving DecidableEq, Repr

/-- One entry of the platform's answer for data reads (R34): a read of exactly `size` bytes that
starts at an address from `first` to `last` is answered with `fault`. With `first = last` an entry
speaks of one read alone, so every predicate on addresses and sizes is a list of entries. -/
structure ReadDenial where
  first : Nat
  last  : Nat
  size  : Nat
  fault : MemFault
  deriving DecidableEq, Repr

/-- One entry of the platform's answer for instruction fetch (R47): fetching any byte from `first`
to `last` is answered with `fault`. -/
structure FetchDenial where
  first : Nat
  last  : Nat
  fault : FetchFault
  deriving DecidableEq, Repr

/-- The values R5 and decision D2 give MAXVL: 512, or 256 on a part with AVX2 only. -/
inductive VectorWidth where
  | bits256
  | bits512
  deriving DecidableEq, Repr

/-- MAXVL as a number of bits. -/
def VectorWidth.bits : VectorWidth → Nat
  | .bits256 => 256
  | .bits512 => 512

/-- The launch parameters: constant over a run (R12, LP2, LP7), arbitrary at launch (R161). -/
structure Launch where
  /-- MAXVL: width of a full vector register (R5, R13, decision D2). -/
  maxVl          : VectorWidth
  /-- NVEC: number of vector registers (R5, R13, decision D3). -/
  nvec           : Fin (Config.vectorCount + 1)
  /-- NK: number of opmask registers (R5, R15, decision D4). -/
  nk             : Fin (Config.maskCount + 1)
  /-- KW: width in bits of an opmask register (R5, R15, decision D4). -/
  kw             : Fin (Config.maskBits + 1)
  /-- The processor is in 64-bit mode (LP1; any other mode is refused, decision D1). -/
  mode64         : Bool
  /-- CPUID feature flags (R20). -/
  hasAvx2        : Bool
  hasAvx512f     : Bool
  hasAvx512vl    : Bool
  hasAvx512bw    : Bool
  /-- Vector state enabled by the operating system (R20). -/
  osAvxEnabled    : Bool
  osAvx512Enabled : Bool
  /-- CR0.TS (R20). -/
  ts             : Bool
  /-- Alignment checking in force (R20, R36). -/
  alignCheck     : Bool
  /-- Segment bases added under 64h and 65h (R21). -/
  fsBase         : Word64
  gsBase         : Word64
  /-- 57-bit linear addresses are enabled, else 48-bit (R37). -/
  la57           : Bool
  /-- What the platform predicate denies of data reads (R34); a read no entry speaks of is admitted. -/
  readDenied     : List ReadDenial
  /-- What the platform predicate denies of instruction fetch (R47). -/
  fetchDenied    : List FetchDenial
  /-- The address at which the run ends (R163, decision D16). -/
  codeEnd        : Word64
  deriving DecidableEq, Repr

/-- The registers and identification bits that R20 defines the Boolean launch parameters by. They
are not state of the model (R12, R20, R25); R20's definitions are `Sys2Proof.Machine.summarise`. -/
structure ControlRegs where
  /-- CPUID.(EAX=07H,ECX=0):EBX. -/
  cpuid7Ebx : BitVec 32
  cr0       : Word64
  cr4       : Word64
  xcr0      : Word64
  rflags    : Word64
  /-- Current privilege level, 0 to 3. -/
  cpl       : BitVec 2
  deriving DecidableEq, Repr

end Sys2Proof
end

