-- ==== Sys2Proof/Syntax.lean ====
section
/-!
DEFINITION. The instructions as syntax: one constructor of `Instr` per row of the opcode table
(R55, R63, R78), with the operand fields of R51 and R56 to R65. Register numbers are assembled
(the inverted prefix bits undone); no raw prefix byte is left.
-/

namespace Sys2Proof

/-- A byte that may precede the VEX or EVEX prefix (R51). -/
inductive LegacyPrefix where
  /-- 26h, 2Eh, 36h, 3Eh: null in 64-bit mode. -/
  | es | cs | ss | ds
  /-- 64h and 65h: add a segment base. -/
  | fs | gs
  /-- 67h: address size 32. -/
  | addr32
  /-- 66h, F2h, F3h, F0h: invalid before VEX or EVEX. -/
  | opsize | repne | rep | lock
  /-- 40h to 4Fh; the argument is the low four bits. -/
  | rex (wrxb : BitVec 4)
  deriving DecidableEq, Repr

/-- The displacement field of a form with a base register (R58). An 8-bit displacement is kept as
encoded; its scale is applied by the effective address (R60). -/
inductive Disp where
  | none
  | d8 (d : BitVec 8)
  | d32 (d : BitVec 32)
  deriving DecidableEq, Repr

/-- The index register of a SIB byte and its two scale bits (R57). -/
structure SibIndex where
  reg   : BitVec 4
  scale : BitVec 2
  deriving DecidableEq, Repr

/-- The addressing forms of ModRM and SIB (R57 to R59). -/
inductive MemOperand where
  /-- `mod = 00b`, `rm = 101b`: relative to the next instruction. -/
  | ripRel (d : BitVec 32)
  /-- A base register and no SIB byte. -/
  | based (base : BitVec 4) (d : Disp)
  /-- A SIB byte with a base register. -/
  | sib (base : BitVec 4) (index : Option SibIndex) (d : Disp)
  /-- A SIB byte without a base register (`mod = 00b`, SIB.base = 101b). -/
  | sibNoBase (index : Option SibIndex) (d : BitVec 32)
  deriving DecidableEq, Repr

/-- Operand 3, SRC2: a vector register with a number of `w` bits, or memory (R56). -/
inductive RegMem (w : Nat) where
  | reg (r : BitVec w)
  | mem (m : MemOperand)
  deriving DecidableEq, Repr

/-- The fields of a VEX-encoded form (R52, R61). -/
structure VexFields where
  legacy : List LegacyPrefix
  dest   : BitVec 4
  src1   : BitVec 4
  src2   : RegMem 4
  deriving DecidableEq, Repr

/-- The fields of an EVEX-encoded form (R54, R62, R64, R65). -/
structure EvexFields where
  legacy : List LegacyPrefix
  dest   : BitVec 5
  src1   : BitVec 5
  src2   : RegMem 5
  /-- Opmask register number; 0 is no writemask. -/
  aaa    : BitVec 3
  /-- Zeroing-masking. -/
  z      : Bool
  /-- EVEX.b. -/
  b      : Bool
  deriving DecidableEq, Repr

/-- One constructor per row of the opcode table: the six instructions, then the four encodings that
differ from a row only in the length field and raise #UD (R55, R63, R78, R131). -/
inductive Instr where
  | vpermdVex256 (e : VexFields)
  | vpermdEvex256 (e : EvexFields)
  | vpermdEvex512 (e : EvexFields)
  | vpermwEvex128 (e : EvexFields)
  | vpermwEvex256 (e : EvexFields)
  | vpermwEvex512 (e : EvexFields)
  | udVpermdVexL0 (e : VexFields)
  | udVpermdEvexLL00 (e : EvexFields)
  | udVpermdEvexLL11 (e : EvexFields)
  | udVpermwEvexLL11 (e : EvexFields)
  deriving DecidableEq, Repr

end Sys2Proof
end

