-- ==== Sys2Proof/WellFormed.lean ====
section
/-!
DEFINITION. Which terms of `Instr` some bytes encode. Only the addressing forms can be ill-formed
(R57, R58): the encodings with `rm = 100b`, `rm = 101b`, SIB.base = 101b and index 0100b mean
something else. Everything else of the syntax is encodable as it stands; an encoding that raises
#UD or is too long is well-formed and faults when executed (R136, R71).
-/

namespace Sys2Proof

/-- The number 0100b means no index register, so it is no index (R57). -/
def SibIndex.wf (x : SibIndex) : Bool := x.reg != 4#4

/-- Absent, or an index register. -/
def SibIndex.optWf : Option SibIndex → Bool
  | none => true
  | some x => x.wf

/-- With no displacement (`mod = 00b`) a base whose low bits are 101b is not a base (R57, R58). -/
def Disp.wfWithBase (base : BitVec 4) : Disp → Bool
  | .none => base.extractLsb' 0 3 != 5#3
  | .d8 _ => true
  | .d32 _ => true

/-- The addressing forms that ModRM and SIB can say (R57, R58). -/
def MemOperand.wf : MemOperand → Bool
  | .ripRel _ => true
  | .based base d => base.extractLsb' 0 3 != 4#3 && d.wfWithBase base
  | .sib base index d => SibIndex.optWf index && d.wfWithBase base
  | .sibNoBase index _ => SibIndex.optWf index

/-- A register number is always encodable; a memory operand when its form is. -/
def RegMem.wf {w : Nat} : RegMem w → Bool
  | .reg _ => true
  | .mem m => m.wf

/-- The instruction is one that some bytes encode. -/
def Instr.wf : Instr → Bool
  | .vpermdVex256 e => e.src2.wf
  | .vpermdEvex256 e => e.src2.wf
  | .vpermdEvex512 e => e.src2.wf
  | .vpermwEvex128 e => e.src2.wf
  | .vpermwEvex256 e => e.src2.wf
  | .vpermwEvex512 e => e.src2.wf
  | .udVpermdVexL0 e => e.src2.wf
  | .udVpermdEvexLL00 e => e.src2.wf
  | .udVpermdEvexLL11 e => e.src2.wf
  | .udVpermwEvexLL11 e => e.src2.wf

/-- The checks of `Instr.wf` as a proposition. -/
abbrev Instr.WellFormed (i : Instr) : Prop := i.wf = true

end Sys2Proof
end

