-- ==== Sys2Proof/Decode.lean ====
section
/-!
DEFINITION. The decoder (R50 to R66, R69), total on any bytes and rejecting by name, and after it
the encoder, written from the same layouts. The decoder answers an instruction for every encoding
of a table row, the #UD rows among them, also where its fields, its legacy prefixes or its length
make it fault: those conditions are `Sys2Proof.Machine`'s (R136, R139), so that several of them can
hold at once.
-/

namespace Sys2Proof

/-- Why bytes are outside the spec (R72, U5). -/
inductive DecodeReject where
  /-- The bytes end before the instruction does. -/
  | truncated
  /-- The two-byte VEX prefix C5h (R53). -/
  | twoByteVex
  /-- After the legacy prefixes comes neither C4h nor 62h (R69 step 2). -/
  | notVexOrEvex
  /-- A VEX prefix or opcode of no row (R66, R72). -/
  | vexRow
  /-- EVEX map, reserved bits, fixed bit or implied prefix of no row (R54, R72). -/
  | evexFixedBits
  /-- EVEX W and opcode of no row (R66). -/
  | evexOpcode
  deriving DecidableEq, Repr

/-- The decoder's answer: an instruction and the bytes after it, or a rejection. -/
inductive Decoded where
  | ok (i : Instr) (rest : List Byte)
  | reject (why : DecodeReject)
  deriving DecidableEq, Repr

/-! ### Legacy prefixes (R51) -/

/-- The byte of a legacy prefix (R51). -/
def LegacyPrefix.toByte : LegacyPrefix → Byte
  | .es => 0x26#8
  | .cs => 0x2E#8
  | .ss => 0x36#8
  | .ds => 0x3E#8
  | .fs => 0x64#8
  | .gs => 0x65#8
  | .addr32 => 0x67#8
  | .opsize => 0x66#8
  | .repne => 0xF2#8
  | .rep => 0xF3#8
  | .lock => 0xF0#8
  | .rex wrxb => 4#4 ++ wrxb

/-- The legacy prefix a byte is, if it is one (R51, R69 step 1). -/
def LegacyPrefix.ofByte (c : Byte) : Option LegacyPrefix :=
  if c = 0x26#8 then some .es
  else if c = 0x2E#8 then some .cs
  else if c = 0x36#8 then some .ss
  else if c = 0x3E#8 then some .ds
  else if c = 0x64#8 then some .fs
  else if c = 0x65#8 then some .gs
  else if c = 0x67#8 then some .addr32
  else if c = 0x66#8 then some .opsize
  else if c = 0xF2#8 then some .repne
  else if c = 0xF3#8 then some .rep
  else if c = 0xF0#8 then some .lock
  else if c.extractLsb' 4 4 = 4#4 then some (.rex (c.extractLsb' 0 4))
  else none

/-- The legacy prefixes at the head of the bytes, and what follows them (R69 step 1). -/
def splitLegacy : List Byte → List LegacyPrefix × List Byte
  | [] => ([], [])
  | c :: cs =>
    match LegacyPrefix.ofByte c with
    | some p => (p :: (splitLegacy cs).1, (splitLegacy cs).2)
    | none => ([], c :: cs)

/-! ### ModRM, SIB, displacement (R56 to R58) -/

/-- A 32-bit displacement, first byte least significant (R58). -/
def takeDisp32 : List Byte → Option (BitVec 32 × List Byte)
  | b0 :: b1 :: b2 :: b3 :: rest => some (b3 ++ b2 ++ b1 ++ b0, rest)
  | _ => none

/-- The displacement `mod` asks for, in a form with a base register (R58). -/
def takeDisp (mod : BitVec 2) (bytes : List Byte) : Option (Disp × List Byte) :=
  if mod = 0#2 then some (.none, bytes)
  else if mod = 1#2 then
    match bytes with
    | d :: rest => some (.d8 d, rest)
    | [] => none
  else (takeDisp32 bytes).map fun r => (.d32 r.1, r.2)

/-- The index register of a SIB byte, `X:index`; 0100b is none (R57). -/
def decodeIndex (x : BitVec 1) (sib : Byte) : Option SibIndex :=
  if x ++ sib.extractLsb' 3 3 = 4#4 then none
  else some ⟨x ++ sib.extractLsb' 3 3, sib.extractLsb' 6 2⟩

/-- The memory operand of ModRM with `mod` other than 11b, from the bytes after ModRM (R57, R58). -/
def decodeMem (mod : BitVec 2) (rm : BitVec 3) (x b : BitVec 1) (bytes : List Byte) :
    Option (MemOperand × List Byte) :=
  if rm = 4#3 then
    match bytes with
    | [] => none
    | sib :: rest =>
      if mod = 0#2 ∧ sib.extractLsb' 0 3 = 5#3 then
        (takeDisp32 rest).map fun r => (.sibNoBase (decodeIndex x sib) r.1, r.2)
      else
        (takeDisp mod rest).map fun r => (.sib (b ++ sib.extractLsb' 0 3) (decodeIndex x sib) r.1, r.2)
  else if mod = 0#2 ∧ rm = 5#3 then
    (takeDisp32 bytes).map fun r => (.ripRel r.1, r.2)
  else
    (takeDisp mod bytes).map fun r => (.based (b ++ rm) r.1, r.2)

/-- SRC2: the register `regNo`, or memory (R56). -/
def decodeRegMem {w : Nat} (modrm : Byte) (x b : BitVec 1) (regNo : BitVec w) (bytes : List Byte) :
    Option (RegMem w × List Byte) :=
  if modrm.extractLsb' 6 2 = 3#2 then some (.reg regNo, bytes)
  else (decodeMem (modrm.extractLsb' 6 2) (modrm.extractLsb' 0 3) x b bytes).map
    fun r => (.mem r.1, r.2)

/-! ### The VEX and EVEX forms -/

/-- The register numbers and SRC2 of a VEX form (R52, R61), from P1, P2 and the bytes from ModRM on. -/
def decodeVexFields (legacy : List LegacyPrefix) (p1 p2 : Byte) (bytes : List Byte) :
    Option (VexFields × List Byte) :=
  match bytes with
  | [] => none
  | modrm :: rest =>
    let r := ~~~(p1.extractLsb' 7 1)
    let x := ~~~(p1.extractLsb' 6 1)
    let b := ~~~(p1.extractLsb' 5 1)
    (decodeRegMem modrm x b (b ++ modrm.extractLsb' 0 3) rest).map fun o =>
      ({ legacy := legacy
         dest := r ++ modrm.extractLsb' 3 3
         src1 := ~~~(p2.extractLsb' 3 4)
         src2 := o.1 }, o.2)

/-- The register numbers, SRC2 and mask fields of an EVEX form (R54, R62, R64, R65), from P0, P1, P2
and the bytes from ModRM on. -/
def decodeEvexFields (legacy : List LegacyPrefix) (p0 p1 p2 : Byte) (bytes : List Byte) :
    Option (EvexFields × List Byte) :=
  match bytes with
  | [] => none
  | modrm :: rest =>
    let r := ~~~(p0.extractLsb' 7 1)
    let x := ~~~(p0.extractLsb' 6 1)
    let b := ~~~(p0.extractLsb' 5 1)
    let r' := ~~~(p0.extractLsb' 4 1)
    let v' := ~~~(p2.extractLsb' 3 1)
    (decodeRegMem modrm x b (x ++ b ++ modrm.extractLsb' 0 3) rest).map fun o =>
      ({ legacy := legacy
         dest := r' ++ r ++ modrm.extractLsb' 3 3
         src1 := v' ++ ~~~(p1.extractLsb' 3 4)
         src2 := o.1
         aaa := p2.extractLsb' 0 3
         z := p2.extractLsb' 7 1 = 1#1
         b := p2.extractLsb' 4 1 = 1#1 }, o.2)

/-- The VEX row and its #UD neighbour: the length bit L chooses (R55, R63). -/
def vexRow (l : BitVec 1) : VexFields → Instr :=
  if l = 1#1 then .vpermdVex256 else .udVpermdVexL0

/-- The EVEX rows of VPERMD (W = 0, opcode 36h): L'L chooses (R55, R63). -/
def evexVpermdRow (ll : BitVec 2) : EvexFields → Instr :=
  if ll = 0#2 then .udVpermdEvexLL00
  else if ll = 1#2 then .vpermdEvex256
  else if ll = 2#2 then .vpermdEvex512
  else .udVpermdEvexLL11

/-- The EVEX rows of VPERMW (W = 1, opcode 8Dh): L'L chooses (R55, R63). -/
def evexVpermwRow (ll : BitVec 2) : EvexFields → Instr :=
  if ll = 0#2 then .vpermwEvex128
  else if ll = 1#2 then .vpermwEvex256
  else if ll = 2#2 then .vpermwEvex512
  else .udVpermwEvexLL11

/-- The VEX pattern of R69 step 2: map 00010b, W = 0, pp = 01b, opcode 36h. -/
def isVexPattern (p1 p2 op : Byte) : Bool :=
  p1.extractLsb' 0 5 = 2#5 && p2.extractLsb' 7 1 = 0#1 && p2.extractLsb' 0 2 = 1#2 && op = 0x36#8

/-- The EVEX pattern of R69 step 2: P0[3:0] = 0010b, P1[2] = 1, pp = 01b. -/
def isEvexPattern (p0 p1 : Byte) : Bool :=
  p0.extractLsb' 0 4 = 2#4 && p1.extractLsb' 2 1 = 1#1 && p1.extractLsb' 0 2 = 1#2

/-- After C4h (R52, R69 step 2). -/
def decodeVex (legacy : List LegacyPrefix) : List Byte → Decoded
  | p1 :: p2 :: op :: rest =>
    if isVexPattern p1 p2 op then
      match decodeVexFields legacy p1 p2 rest with
      | some (e, rest') => .ok (vexRow (p2.extractLsb' 2 1) e) rest'
      | none => .reject .truncated
    else .reject .vexRow
  | _ => .reject .truncated

/-- After 62h (R54, R69 step 2). -/
def decodeEvex (legacy : List LegacyPrefix) : List Byte → Decoded
  | p0 :: p1 :: p2 :: op :: rest =>
    if isEvexPattern p0 p1 then
      if p1.extractLsb' 7 1 = 0#1 ∧ op = 0x36#8 then
        match decodeEvexFields legacy p0 p1 p2 rest with
        | some (e, rest') => .ok (evexVpermdRow (p2.extractLsb' 5 2) e) rest'
        | none => .reject .truncated
      else if p1.extractLsb' 7 1 = 1#1 ∧ op = 0x8D#8 then
        match decodeEvexFields legacy p0 p1 p2 rest with
        | some (e, rest') => .ok (evexVpermwRow (p2.extractLsb' 5 2) e) rest'
        | none => .reject .truncated
      else .reject .evexOpcode
    else .reject .evexFixedBits
  | _ => .reject .truncated

/-- What follows the legacy prefixes (R69 step 2). -/
def decodeBody (legacy : List LegacyPrefix) : List Byte → Decoded
  | [] => .reject .truncated
  | c :: rest =>
    if c = 0xC4#8 then decodeVex legacy rest
    else if c = 0x62#8 then decodeEvex legacy rest
    else if c = 0xC5#8 then .reject .twoByteVex
    else .reject .notVexOrEvex

/-- The decoder (R69). -/
def decode (bytes : List Byte) : Decoded :=
  decodeBody (splitLegacy bytes).1 (splitLegacy bytes).2

/-! ### Length (R71) -/

/-- Displacement bytes of a form with a base register (R58). -/
def Disp.length : Disp → Nat
  | .none => 0
  | .d8 _ => 1
  | .d32 _ => 4

/-- SIB and displacement bytes (R57, R58). -/
def MemOperand.length : MemOperand → Nat
  | .ripRel _ => 4
  | .based _ d => d.length
  | .sib _ _ d => 1 + d.length
  | .sibNoBase _ _ => 5

/-- Bytes after ModRM. -/
def RegMem.length {w : Nat} : RegMem w → Nat
  | .reg _ => 0
  | .mem m => m.length

/-- Legacy prefixes, three bytes of VEX, opcode, ModRM and what follows it (R71). -/
def VexFields.length (e : VexFields) : Nat := e.legacy.length + 5 + e.src2.length

/-- Legacy prefixes, four bytes of EVEX, opcode, ModRM and what follows it (R71). -/
def EvexFields.length (e : EvexFields) : Nat := e.legacy.length + 6 + e.src2.length

/-- The instruction's length in bytes (R71). -/
def Instr.length : Instr → Nat
  | .vpermdVex256 e => e.length
  | .vpermdEvex256 e => e.length
  | .vpermdEvex512 e => e.length
  | .vpermwEvex128 e => e.length
  | .vpermwEvex256 e => e.length
  | .vpermwEvex512 e => e.length
  | .udVpermdVexL0 e => e.length
  | .udVpermdEvexLL00 e => e.length
  | .udVpermdEvexLL11 e => e.length
  | .udVpermwEvexLL11 e => e.length

/-! ### The encoder -/

/-- The four bytes of a 32-bit displacement, lowest first (R58). -/
def disp32Bytes (d : BitVec 32) : List Byte :=
  [d.extractLsb' 0 8, d.extractLsb' 8 8, d.extractLsb' 16 8, d.extractLsb' 24 8]

/-- The displacement bytes of a form with a base register (R58). -/
def Disp.bytes : Disp → List Byte
  | .none => []
  | .d8 d => [d]
  | .d32 d => disp32Bytes d

/-- `mod` for a form with a base register (R58). -/
def Disp.mod : Disp → BitVec 2
  | .none => 0#2
  | .d8 _ => 1#2
  | .d32 _ => 2#2

/-- Scale and index bits of a SIB byte; without an index register the scale bits are 00b (R57). -/
def sibHigh : Option SibIndex → BitVec 5
  | none => 0#2 ++ 4#3
  | some x => x.scale ++ x.reg.extractLsb' 0 3

/-- The X bit an index register needs (R57). -/
def indexX : Option SibIndex → BitVec 1
  | none => 0#1
  | some x => x.reg.extractLsb' 3 1

/-- `mod`, `rm` and the bytes after ModRM for a memory operand (R56 to R58). -/
def MemOperand.parts : MemOperand → BitVec 2 × BitVec 3 × List Byte
  | .ripRel d => (0#2, 5#3, disp32Bytes d)
  | .based base d => (d.mod, base.extractLsb' 0 3, d.bytes)
  | .sib base index d => (d.mod, 4#3, (sibHigh index ++ base.extractLsb' 0 3) :: d.bytes)
  | .sibNoBase index d => (0#2, 4#3, (sibHigh index ++ 5#3) :: disp32Bytes d)

/-- The X and B bits a memory operand needs (R57, R59). -/
def MemOperand.xb : MemOperand → BitVec 1 × BitVec 1
  | .ripRel _ => (0#1, 0#1)
  | .based base _ => (0#1, base.extractLsb' 3 1)
  | .sib base index _ => (indexX index, base.extractLsb' 3 1)
  | .sibNoBase index _ => (indexX index, 0#1)

/-- The X and B bits of SRC2: a register number is `X:B:rm`, with X zero for four bits (R61, R62). -/
def RegMem.xb {w : Nat} : RegMem w → BitVec 1 × BitVec 1
  | .reg r => ((r.setWidth 5).extractLsb' 4 1, (r.setWidth 5).extractLsb' 3 1)
  | .mem m => m.xb

/-- ModRM and the bytes after it (R56). -/
def RegMem.bytes {w : Nat} (reg3 : BitVec 3) : RegMem w → List Byte
  | .reg r => [3#2 ++ reg3 ++ (r.setWidth 5).extractLsb' 0 3]
  | .mem m => (m.parts.1 ++ reg3 ++ m.parts.2.1) :: m.parts.2.2

/-- A VEX form with length bit `l` (R52, R61). -/
def encodeVex (l : BitVec 1) (e : VexFields) : List Byte :=
  e.legacy.map LegacyPrefix.toByte ++
    [0xC4#8,
     ~~~(e.dest.extractLsb' 3 1) ++ ~~~e.src2.xb.1 ++ ~~~e.src2.xb.2 ++ 2#5,
     0#1 ++ ~~~e.src1 ++ l ++ 1#2,
     0x36#8] ++
    e.src2.bytes (e.dest.extractLsb' 0 3)

/-- An EVEX form with width bit `w`, length bits `ll` and opcode `op` (R54, R62, R64, R65). -/
def encodeEvex (w : BitVec 1) (ll : BitVec 2) (op : Byte) (e : EvexFields) : List Byte :=
  e.legacy.map LegacyPrefix.toByte ++
    [0x62#8,
     ~~~(e.dest.extractLsb' 3 1) ++ ~~~e.src2.xb.1 ++ ~~~e.src2.xb.2 ++
       ~~~(e.dest.extractLsb' 4 1) ++ 2#4,
     w ++ ~~~(e.src1.extractLsb' 0 4) ++ 1#1 ++ 1#2,
     BitVec.ofBool e.z ++ ll ++ BitVec.ofBool e.b ++ ~~~(e.src1.extractLsb' 4 1) ++ e.aaa,
     op] ++
    e.src2.bytes (e.dest.extractLsb' 0 3)

/-- The bytes of an instruction, lowest address first (R50, R55). -/
def encode : Instr → List Byte
  | .vpermdVex256 e => encodeVex 1#1 e
  | .vpermdEvex256 e => encodeEvex 0#1 1#2 0x36#8 e
  | .vpermdEvex512 e => encodeEvex 0#1 2#2 0x36#8 e
  | .vpermwEvex128 e => encodeEvex 1#1 0#2 0x8D#8 e
  | .vpermwEvex256 e => encodeEvex 1#1 1#2 0x8D#8 e
  | .vpermwEvex512 e => encodeEvex 1#1 2#2 0x8D#8 e
  | .udVpermdVexL0 e => encodeVex 0#1 e
  | .udVpermdEvexLL00 e => encodeEvex 0#1 0#2 0x36#8 e
  | .udVpermdEvexLL11 e => encodeEvex 0#1 3#2 0x36#8 e
  | .udVpermwEvexLL11 e => encodeEvex 1#1 3#2 0x8D#8 e

/-! ### Words of the opcode table -/

/-- The `n` low bytes of a number, least significant first: the first byte of the instruction is
the number's bits 7:0. -/
def bytesOfWord : Nat → Nat → List Byte
  | 0, _ => []
  | n + 1, w => BitVec.ofNat 8 w :: bytesOfWord n (w / 256)

/-- An instruction's bytes from a word of the opcode table: the table's bits, then zeros up to the
longest instruction. Log entry 11. -/
def tableBytes (nbits w : Nat) : List Byte :=
  bytesOfWord ((nbits + 7) / 8) w ++
    List.replicate (Config.maxInstrLength - (nbits + 7) / 8) 0#8

/-- What the decoder reads from a word of the opcode table. -/
def decodeTableWord (nbits w : Nat) : Option Instr :=
  match decode (tableBytes nbits w) with
  | .ok i _ => some i
  | .reject _ => none

end Sys2Proof
end

