-- ==== Sys2Proof/Machine/State.lean ====
section
/-!
DEFINITION. The machine's state as plain data (R12), the faults (R130, R140), the refusals (R72,
R17, R163, decision D1), and the state a run starts from where no launch state is given.
-/

namespace Sys2Proof.Machine

/-- Memory: the bytes that are not zero, at strictly rising addresses (R30). An unlisted address
reads as zero (log entry 3), so every assignment of bytes to addresses is one such list. -/
abbrev Memory := List Host.Cell

/-- The canonical form above address `lo`: rising addresses of the address space, no listed zero. -/
def Memory.wfFrom : Nat → Memory → Bool
  | _, [] => true
  | lo, (a, v) :: rest => lo ≤ a && a < addressSpace && v != 0#8 && Memory.wfFrom (a + 1) rest

/-- Memory is in its canonical form. -/
def Memory.wf (m : Memory) : Bool := Memory.wfFrom 0 m

/-- The state: R12's tuple, the launch parameters (constant over a run), and the model's own field
`draw`, the plain data the free value of R139 is applied to (log entry 5). -/
structure State where
  /-- The vector registers (R13). Registers from `cfg.nvec` on, and bits from MAXVL on, are not the
  machine's (R5, log entry 20). -/
  zmm  : Vector (BitVec Config.vectorBits) Config.vectorCount
  /-- The opmask registers (R15). Registers from `cfg.nk` on, and bits from `cfg.kw` on, are not the
  machine's (R5, log entry 20). -/
  k    : Vector (BitVec Config.maskBits) Config.maskCount
  /-- The general registers (R16). -/
  gpr  : Vector Word64 Config.NGPR
  /-- The instruction pointer (R17). -/
  rip  : Word64
  /-- The one address space (R30). -/
  mem  : Memory
  /-- The launch parameters (R5, R20, R21, R161). -/
  cfg  : Launch
  /-- Not the hardware's: selects the free value of R139. -/
  draw : Nat
  deriving DecidableEq, Repr

/-- The exceptions of R130, each a terminal fault that leaves the state as it was (R140). Stopping
is safe: the hardware would go on in a handler, about which nothing can then be proved. -/
inductive Fault where
  /-- #UD: an illegal encoding, a missing feature flag or enabling (R131, R132, R134, R136); raised
  by every meaning and, with a fetch fault, by `fetch`. Safe. -/
  | invalidOpcode
  /-- #NM: `ts` is true (R135); raised by the six instructions. Safe. -/
  | deviceNotAvailable
  /-- #SS(0): a non-canonical operand in an access through SS, or the platform's answer (R37, R137);
  raised by forms with a memory operand. Safe. -/
  | stackFault
  /-- #GP(0): an instruction of more than 15 bytes, a non-canonical operand, or the platform's answer
  to a read or a fetch (R71, R37, R137, R47); raised by every meaning and by `fetch`. Safe. -/
  | generalProtection
  /-- #PF: the platform's answer to a read or a fetch, with its code (R137, R47); raised by forms with
  a memory operand and by `fetch`. Safe. -/
  | pageFault (code : BitVec 32)
  /-- #AC(0): a broadcast doubleword not at a multiple of four under alignment checking (R36); raised
  by the EVEX forms of VPERMD. Safe. -/
  | alignmentCheck
  deriving DecidableEq, Repr

/-- Why a step has no meaning. A refusal is safe: nothing can be proved of what comes after (R145). -/
inductive Refusal where
  /-- An instruction that has no meaning yet; no arm of `exec` raises it. Safe. -/
  | notModelled (mnemonic : String)
  /-- The bytes are no encoding of this spec (R72); raised by `fetch`. Safe. -/
  | outOfScope (why : DecodeReject)
  /-- The processor is not in 64-bit mode (R73, decision D1); raised by `fetch`. Safe. -/
  | notMode64
  /-- The run has ended normally: `rip = CODE_END` at the start of a step (R163); raised by `fetch`.
  Safe. -/
  | endOfRun
  /-- The instruction starts below CODE_END and extends past it (R163); raised by `fetch`. Safe. -/
  | straddlesCodeEnd
  /-- `rip + len` exceeds 2^64 - 1 (R17, decision D23); raised by `fetch`. Safe. -/
  | addressWrap
  /-- A byte of the instruction is at a non-canonical address (R17, decision D23); raised by `fetch`.
  Safe. -/
  | nonCanonicalCode
  /-- The instruction, which raises no exception, needs a register, or bits of one, that R5's
  parameters say the machine does not have (log entry 20); raised by the six instructions. Safe. -/
  | absentState
  deriving DecidableEq, Repr

/-- The launch parameters of `State.reset`: R5's decided sizes, those every vector of the spec uses
(95_test_vectors.md section 3), 48-bit linear addresses, a platform that denies nothing, and CODE_END at the end of the
low canonical half. DESIGN CHOICE (log entries 1 and 4). -/
def initialLaunch : Launch where
  maxVl := .bits512
  nvec := 32
  nk := 8
  kw := 64
  mode64 := true
  hasAvx2 := true
  hasAvx512f := true
  hasAvx512vl := true
  hasAvx512bw := true
  osAvxEnabled := true
  osAvx512Enabled := true
  ts := false
  alignCheck := false
  fsBase := 0#64
  gsBase := 0#64
  la57 := false
  readDenied := []
  fetchDenied := []
  codeEnd := 0x800000000000#64

/-- The state a run starts from where none is given: one launch state (R24, R161, decision D15). The
spec states no reset value (R24, R160); the registers hold the values R25 gives as general knowledge:
zero, RDX the processor signature, `rip` the linear address of the first fetch. PRESUMED (log entry
2). -/
def State.reset : State where
  zmm := Vector.replicate 32 0#512
  k := Vector.replicate 8 0#64
  gpr := (Vector.replicate 16 0#64).set 2 0xA06D1#64
  rip := 0xFFFFFFF0#64
  mem := []
  cfg := initialLaunch
  draw := 0

end Sys2Proof.Machine
end

