-- ==== Sys2Proof/Machine/Ops.lean ====
section
/-!
DEFINITION. The named operations over memory and registers, the platform predicates (R34, R37, R47),
raising an exception (R140) and the open choice among several (R139).
-/

namespace Sys2Proof.Machine

/-! ### Registers (R13, R15, R16) -/

/-- The full vector register `zmm[r]` (R13). -/
def State.readZmm (s : State) (r : BitVec 5) : BitVec 512 := s.zmm[r.toNat]'r.isLt

/-- The MAXVL low bits of a vector register's value, the others zero (R5, R13). -/
def clipZmm (cfg : Launch) (v : BitVec 512) : BitVec 512 := (v.setWidth cfg.maxVl.bits).setWidth 512

/-- `zmm[r] <- v`, a value of MAXVL bits (R7, R13). -/
def State.writeZmm (s : State) (r : BitVec 5) (v : BitVec 512) : State :=
  { s with zmm := s.zmm.set r.toNat (clipZmm s.cfg v) r.isLt }

/-- The opmask register `k[a]` (R15). -/
def State.readMask (s : State) (a : BitVec 3) : BitVec 64 := s.k[a.toNat]'a.isLt

/-- The general register `gpr[g]` (R16). -/
def State.readGpr (s : State) (g : BitVec 4) : Word64 := s.gpr[g.toNat]'g.isLt

/-- `rip <- v` (R17). -/
def State.writeRip (s : State) (v : Word64) : State := { s with rip := v }

/-! ### Memory (R30, R31) -/

/-- The byte at an address (R30). -/
def Memory.readByte : Memory → Nat → Byte
  | [], _ => 0#8
  | (b, v) :: rest, a => if b = a then v else Memory.readByte rest a

/-- Memory with the byte at address `a` replaced, in canonical form. No instruction in scope writes
memory (R32); placing a program does. -/
def Memory.writeByte : Memory → Nat → Byte → Memory
  | [], a, v => if v = 0#8 then [] else [(a, v)]
  | (b, u) :: rest, a, v =>
    if a < b then (if v = 0#8 then (b, u) :: rest else (a, v) :: (b, u) :: rest)
    else if a = b then (if v = 0#8 then rest else (a, v) :: rest)
    else (b, u) :: Memory.writeByte rest a v

/-- The bytes stored at rising addresses from `a`, modulo 2^64. -/
def Memory.writeBytes (m : Memory) (a : Word64) : List Byte → Memory
  | [] => m
  | v :: vs => Memory.writeBytes (Memory.writeByte m a.toNat v) (a + 1#64) vs

/-- `MemRead` (R31): the `n` bytes from `a`, modulo 2^64, lowest address least significant. -/
def Memory.readLE (m : Memory) : (n : Nat) → Word64 → BitVec (8 * n)
  | 0, _ => 0#0
  | n + 1, a => Memory.readLE m n (a + 1#64) ++ Memory.readByte m a.toNat

/-- The `n` bytes at rising addresses from `a` (R47). -/
def Memory.bytesFrom (m : Memory) : (n a : Nat) → List Byte
  | 0, _ => []
  | n + 1, a => Memory.readByte m a :: Memory.bytesFrom m n (a + 1)

/-! ### Canonical addresses and the platform's answers (R34, R37, R47) -/

/-- Bits 63:47, or 63:56 with 57-bit linear addresses, are all equal (R37). -/
def canonical (la57 : Bool) (a : Word64) : Bool :=
  if la57 then a.extractLsb' 56 8 = 0#8 || a.extractLsb' 56 8 = BitVec.allOnes 8
  else a.extractLsb' 47 17 = 0#17 || a.extractLsb' 47 17 = BitVec.allOnes 17

/-- Every one of the `n` bytes from `a`, modulo 2^64, is at a canonical address (R17, R37). -/
def allCanonical (la57 : Bool) : (n : Nat) → Word64 → Bool
  | 0, _ => true
  | n + 1, a => canonical la57 a && allCanonical la57 n (a + 1#64)

/-- The platform's answer to a read of `n` bytes at `a`: `none` is ok (R34). -/
def memOK (cfg : Launch) (a : Word64) (n : Nat) : Option MemFault :=
  (cfg.readDenied.find? fun d => d.first ≤ a.toNat && a.toNat ≤ d.last && d.size = n).map (·.fault)

/-- The platform's answer to fetching the byte at `a`: `none` is ok (R47). -/
def fetchOK (cfg : Launch) (a : Word64) : Option FetchFault :=
  (cfg.fetchDenied.find? fun d => d.first ≤ a.toNat && a.toNat ≤ d.last).map (·.fault)

/-- The platform's answer to fetching `n` bytes from `a` in ascending order: that of the first byte
denied (R47). -/
def fetchRun (cfg : Launch) : (n : Nat) → Word64 → Option FetchFault
  | 0, _ => none
  | n + 1, a =>
    match fetchOK cfg a with
    | some f => some f
    | none => fetchRun cfg n (a + 1#64)

/-- The exception of a data-read answer (R34, R137, R143). -/
def ofMemFault : MemFault → Fault
  | .pageFault c => .pageFault c
  | .generalProtection => .generalProtection
  | .stackFault => .stackFault

/-- The exception of a fetch answer (R47). -/
def ofFetchFault : FetchFault → Fault
  | .pageFault c => .pageFault c
  | .generalProtection => .generalProtection

/-! ### Exceptions (R130, R139, R140) -/

/-- Vector number of an exception (R130). -/
def Fault.vector : Fault → Nat
  | .invalidOpcode => 6
  | .deviceNotAvailable => 7
  | .stackFault => 12
  | .generalProtection => 13
  | .pageFault _ => 14
  | .alignmentCheck => 17

/-- Error code of an exception, where it has one (R130, R137). -/
def Fault.errorCode : Fault → Option (BitVec 32)
  | .invalidOpcode => none
  | .deviceNotAvailable => none
  | .stackFault => some 0#32
  | .generalProtection => some 0#32
  | .pageFault c => some c
  | .alignmentCheck => some 0#32

/-- Taking an exception: the step ends in the fault, no state is changed and the run ends (R140,
decision D10). Delivery and return are out of scope (R4, R141, R142). -/
def raise (f : Fault) : Host.Outcome State Fault Refusal := .fault f

/-- The fault reported when the listed ones apply, all of one priority line: none where none applies,
the one where one does, and otherwise one of them that nothing determines (R139). -/
def State.report (s : State) : List Fault → Option Fault
  | [] => none
  | [f] => some f
  | f :: g :: rest =>
    some ((f :: g :: rest).getD (Config.freePick s.draw s.rip % (f :: g :: rest).length) f)

/-- The faults of R139 line 2 that do not come from fetching: #UD where `ud`, #GP(0) for a length
above 15. -/
def decodeFaults (ud : Bool) (len : Nat) : List Fault :=
  (if ud then [.invalidOpcode] else []) ++
    (if Config.maxInstrLength < len then [.generalProtection] else [])

end Sys2Proof.Machine
end

