-- ==== Sys2Proof/Machine/Operands.lean ====
section
/-!
DEFINITION. The operand forms: what the legacy prefixes say (R51), the effective address (R58 to
R60), the faults of the memory operand (R34 to R37, R137), and SRC2 as a vector (R92).
-/

namespace Sys2Proof.Machine

/-! ### Legacy prefixes (R51) -/

/-- A segment register whose base is added. -/
inductive Seg where
  | fs
  | gs
  deriving DecidableEq, Repr

/-- The last of 64h and 65h, if any; the null prefixes do not cancel it (R51). -/
def lastSeg : List LegacyPrefix → Option Seg
  | [] => none
  | p :: ps =>
    match lastSeg ps with
    | some g => some g
    | none =>
      match p with
      | .fs => some .fs
      | .gs => some .gs
      | _ => none

/-- A 67h prefix is present (R51). -/
def addrSize32 (legacy : List LegacyPrefix) : Bool := legacy.any (· = .addr32)

/-- 66h, F2h, F3h and F0h are invalid before VEX and EVEX, wherever they stand (R51). -/
def invalidLegacy : LegacyPrefix → Bool
  | .opsize => true
  | .repne => true
  | .rep => true
  | .lock => true
  | _ => false

/-- A REX byte stands immediately before the VEX or EVEX prefix (R51). -/
def rexLast (legacy : List LegacyPrefix) : Bool :=
  match legacy.getLast? with
  | some (.rex _) => true
  | _ => false

/-- The legacy prefixes raise #UD (R51, R136). -/
def badLegacy (legacy : List LegacyPrefix) : Bool :=
  legacy.any invalidLegacy || rexLast legacy

/-! ### The effective address (R58 to R60) -/

/-- The value of a displacement: sign-extended, an 8-bit one times `scale` (R58, R60). -/
def dispValue (scale : Nat) : Disp → Word64
  | .none => 0#64
  | .d8 d => d.signExtend 64 * BitVec.ofNat 64 scale
  | .d32 d => d.signExtend 64

/-- The index register times its scale factor, zero where there is none (R57, R59). -/
def State.indexValue (s : State) : Option SibIndex → Word64
  | none => 0#64
  | some x => s.readGpr x.reg <<< x.scale.toNat

/-- Base, index and displacement before the address size and the segment base apply (R59). -/
def State.offset (s : State) (scale : Nat) (next : Word64) : MemOperand → Word64
  | .ripRel d => next + d.signExtend 64
  | .based base d => dispValue scale d + s.readGpr base
  | .sib base index d => dispValue scale d + s.readGpr base + s.indexValue index
  | .sibNoBase index d => d.signExtend 64 + s.indexValue index

/-- The base a segment prefix adds (R21, R59). -/
def segBase (cfg : Launch) : Option Seg → Word64
  | none => 0#64
  | some .fs => cfg.fsBase
  | some .gs => cfg.gsBase

/-- The effective address, `next` being the address after the instruction (R59). -/
def State.effAddr (s : State) (legacy : List LegacyPrefix) (scale : Nat) (next : Word64)
    (m : MemOperand) : Word64 :=
  (if addrSize32 legacy then ((s.offset scale next m).setWidth 32).setWidth 64
    else s.offset scale next m) + segBase s.cfg (lastSeg legacy)

/-- The base register of a memory operand (R57, R59). -/
def baseReg? : MemOperand → Option (BitVec 4)
  | .ripRel _ => none
  | .based base _ => some base
  | .sib base _ _ => some base
  | .sibNoBase _ _ => none

/-- The access goes through SS: base RSP or RBP and no 64h or 65h prefix (R37). -/
def usesStackSegment (legacy : List LegacyPrefix) (m : MemOperand) : Bool :=
  (lastSeg legacy).isNone && (baseReg? m = some 4#4 || baseReg? m = some 5#4)

/-! ### Faults of the memory operand (R34 to R37, R137) -/

/-- The faults that apply to a read of `n` bytes at `ea`: non-canonical, the platform's answer, and
#AC(0) where the read is checked for alignment (`checked`) and misaligned. -/
def State.readFaults (s : State) (legacy : List LegacyPrefix) (m : MemOperand) (ea : Word64)
    (n : Nat) (checked : Bool) : List Fault :=
  (if allCanonical s.cfg.la57 n ea then []
    else [if usesStackSegment legacy m then .stackFault else .generalProtection]) ++
  ((memOK s.cfg ea n).map ofMemFault).toList ++
  (if checked && s.cfg.alignCheck && ea.toNat % 4 != 0 then [.alignmentCheck] else [])

/-! ### Elements of a vector (R6) -/

/-- Element `j` of width `w` (R6, R7). -/
def elem {vl : Nat} (v : BitVec vl) (w j : Nat) : BitVec w := v.extractLsb' (w * j) w

/-- The vector of `n` elements of width `w` whose element `j` is `f j` (R6). -/
def pack (w : Nat) : (n : Nat) → (Nat → BitVec w) → BitVec (w * n)
  | 0, _ => 0#0
  | n + 1, f => (f n ++ pack w n f).cast (by rw [Nat.mul_succ, Nat.add_comm])

end Sys2Proof.Machine
end

