-- ==== Sys2Proof/Machine/Flags.lean ====
section
/-!
DEFINITION. What the instructions test. No instruction in scope reads or writes a flag of RFLAGS or
MXCSR (R18, R19, R97), so there is no flag computation; the predicates are the writemask (R94), R20's
definitions of the launch parameters, the feature flags and enabling (R77, R132, R134), and the #UD
conditions of an encoding (R131, R136).
-/

namespace Sys2Proof.Machine

/-! ### The writemask (R64, R94) -/

/-- Element `j` is updated: no writemask, or bit `j` of the opmask register (R94). -/
def State.selected (s : State) (aaa : BitVec 3) (j : Nat) : Bool :=
  aaa = 0#3 || (s.readMask aaa).getLsbD j

/-! ### The launch parameters in terms of control registers (R20) -/

/-- The launch parameters with the Booleans R20 defines by control registers and CPUID bits. -/
def summarise (c : ControlRegs) (base : Launch) : Launch :=
  { base with
    hasAvx2 := c.cpuid7Ebx.getLsbD 5
    hasAvx512f := c.cpuid7Ebx.getLsbD 16
    hasAvx512bw := c.cpuid7Ebx.getLsbD 30
    hasAvx512vl := c.cpuid7Ebx.getLsbD 31
    osAvxEnabled := c.cr4.getLsbD 18 && c.xcr0.extractLsb' 1 2 = 3#2
    osAvx512Enabled := c.cr4.getLsbD 18 && c.xcr0.extractLsb' 1 2 = 3#2 && c.xcr0.extractLsb' 5 3 = 7#3
    ts := c.cr0.getLsbD 3
    alignCheck := c.cr0.getLsbD 18 && c.rflags.getLsbD 18 && c.cpl = 3#2 }

/-! ### #UD conditions (R51, R65, R64, R132, R134, R136) -/

/-- SRC2 is memory. -/
def isMem {w : Nat} : RegMem w → Bool
  | .reg _ => false
  | .mem _ => true

/-- The encoding conditions of an EVEX form for #UD: the legacy prefixes, EVEX.b where there is no
broadcast, and zeroing without a writemask (R51, R64, R65, R136). -/
def evexIllegal (hasBroadcast : Bool) (e : EvexFields) : Bool :=
  badLegacy e.legacy || (e.b && !(hasBroadcast && isMem e.src2)) || (e.z && e.aaa = 0#3)

/-- VEX.256 VPERMD raises #UD (R51, R132, R134). -/
def udVpermdVex256 (cfg : Launch) (e : VexFields) : Bool :=
  badLegacy e.legacy || !cfg.hasAvx2 || !cfg.osAvxEnabled

/-- EVEX.256 VPERMD raises #UD (R111, R132, R134, R136). -/
def udVpermdEvex256 (cfg : Launch) (e : EvexFields) : Bool :=
  evexIllegal true e || !(cfg.hasAvx512f && cfg.hasAvx512vl) || !cfg.osAvx512Enabled

/-- EVEX.512 VPERMD raises #UD (R112, R132, R134, R136). -/
def udVpermdEvex512 (cfg : Launch) (e : EvexFields) : Bool :=
  evexIllegal true e || !cfg.hasAvx512f || !cfg.osAvx512Enabled

/-- EVEX.128 VPERMW raises #UD (R120, R132, R134, R136). -/
def udVpermwEvex128 (cfg : Launch) (e : EvexFields) : Bool :=
  evexIllegal false e || !(cfg.hasAvx512bw && cfg.hasAvx512vl) || !cfg.osAvx512Enabled

/-- EVEX.256 VPERMW raises #UD (R121, R132, R134, R136). -/
def udVpermwEvex256 (cfg : Launch) (e : EvexFields) : Bool :=
  evexIllegal false e || !(cfg.hasAvx512bw && cfg.hasAvx512vl) || !cfg.osAvx512Enabled

/-- EVEX.512 VPERMW raises #UD (R122, R132, R134, R136). -/
def udVpermwEvex512 (cfg : Launch) (e : EvexFields) : Bool :=
  evexIllegal false e || !cfg.hasAvx512bw || !cfg.osAvx512Enabled

/-- The instruction raises #UD; the four illegal-length rows always do (R63, R131). -/
def raisesUD (cfg : Launch) : Instr → Bool
  | .vpermdVex256 e => udVpermdVex256 cfg e
  | .vpermdEvex256 e => udVpermdEvex256 cfg e
  | .vpermdEvex512 e => udVpermdEvex512 cfg e
  | .vpermwEvex128 e => udVpermwEvex128 cfg e
  | .vpermwEvex256 e => udVpermwEvex256 cfg e
  | .vpermwEvex512 e => udVpermwEvex512 cfg e
  | .udVpermdVexL0 _ => true
  | .udVpermdEvexLL00 _ => true
  | .udVpermdEvexLL11 _ => true
  | .udVpermwEvexLL11 _ => true

end Sys2Proof.Machine
end

