-- ==== Sys2Proof/Machine/Permute.lean ====
section
/-!
DEFINITION. What the six instructions share (40_common.md): the form's parameters, index extraction
(R93), the element result (R95), the data vector SRC2 (R92), and the rest of the step from the #UD
conditions to the destination write (R90, R91, R96, R97).
-/

namespace Sys2Proof.Machine

/-- The parameters of a form: element width, number of elements, and position of the highest index
bit (R10, R93). -/
structure Form where
  w  : Nat
  kl : Nat
  n  : Nat
  deriving DecidableEq, Repr

/-- The vector length in bits (R10). -/
abbrev Form.vl (f : Form) : Nat := f.w * f.kl

/-- VPERMD with VL = 256 (R110, R111). -/
abbrev vpermd256 : Form := ⟨32, 8, 2⟩

/-- VPERMD with VL = 512 (R112). -/
abbrev vpermd512 : Form := ⟨32, 16, 3⟩

/-- VPERMW with VL = 128 (R120). -/
abbrev vpermw128 : Form := ⟨16, 8, 2⟩

/-- VPERMW with VL = 256 (R121). -/
abbrev vpermw256 : Form := ⟨16, 16, 3⟩

/-- VPERMW with VL = 512 (R122). -/
abbrev vpermw512 : Form := ⟨16, 32, 4⟩

/-- The index of element `j`: bits `i+n` to `i` of SRC1, `i = w*j` (R93). -/
def Form.index (f : Form) (s1 : BitVec f.vl) (j : Nat) : Nat :=
  (s1.extractLsb' (f.w * j) (f.n + 1)).toNat

/-- The `VL`-bit result from the snapshot of the operands (R95): the selected element of SRC2, or the
old element of DEST under merging, or zero under zeroing. -/
def Form.result (f : Form) (s1 s2 d0 : BitVec f.vl) (sel : Nat → Bool) (z : Bool) : BitVec f.vl :=
  pack f.w f.kl fun j =>
    if sel j then elem s2 f.w (f.index s1 j)
    else if z then 0#f.w
    else elem d0 f.w j

/-- What a form hands to the shared step. -/
structure Permute where
  form   : Form
  legacy : List LegacyPrefix
  len    : Nat
  dest   : BitVec 5
  src1   : BitVec 5
  src2   : RegMem 5
  aaa    : BitVec 3
  z      : Bool
  /-- The memory operand is one doubleword, replicated (R65). -/
  bcast  : Bool
  /-- A #UD condition holds. -/
  ud     : Bool
  deriving DecidableEq, Repr

/-- Bytes of the memory operand (R32). -/
def Permute.bytes (p : Permute) : Nat := if p.bcast then 4 else p.form.vl / 8

/-- The scale of an 8-bit displacement in an EVEX form (R60): the size of the memory operand. -/
def evexScale (f : Form) (bcast : Bool) : Nat := if bcast then 4 else f.vl / 8

/-- The address of the next instruction (R17, R59). -/
def Permute.next (p : Permute) (s : State) : Word64 := s.rip + BitVec.ofNat 64 p.len

/-- The faults that apply to SRC2 (R137): none for a register. -/
def Permute.operandFaults (p : Permute) (scale : Nat) (s : State) : List Fault :=
  match p.src2 with
  | .reg _ => []
  | .mem m => s.readFaults p.legacy m (s.effAddr p.legacy scale (p.next s) m) p.bytes p.bcast

/-- The data vector SRC2 (R92): a register's low bits, one doubleword replicated, or the memory
operand. -/
def Permute.data (p : Permute) (scale : Nat) (s : State) : BitVec p.form.vl :=
  match p.src2 with
  | .reg r => (s.readZmm r).setWidth p.form.vl
  | .mem m =>
    if p.bcast then
      pack p.form.w p.form.kl fun _ =>
        (s.mem.readLE 4 (s.effAddr p.legacy scale (p.next s) m)).setWidth p.form.w
    else (s.mem.readLE (p.form.vl / 8) (s.effAddr p.legacy scale (p.next s) m)).setWidth p.form.vl

/-- The vector register numbers of SRC2. -/
def srcRegs : RegMem 5 → List (BitVec 5)
  | .reg r => [r]
  | .mem _ => []

/-- The machine has what the form names (R5): vectors of its length, its vector registers, and, under a
writemask, the opmask register and a bit of it for each element. -/
def Permute.present (cfg : Launch) (p : Permute) : Bool :=
  decide (p.form.vl ≤ cfg.maxVl.bits) &&
    (p.dest :: p.src1 :: srcRegs p.src2).all (fun r => decide (r.toNat < cfg.nvec.val)) &&
    (p.aaa = 0#3 || (decide (p.aaa.toNat < cfg.nk.val) && decide (p.form.kl ≤ cfg.kw.val)))

/-- The state after a completed step (R91, R96, R97): every source is read from the state at the
start; DEST receives the result zero-extended to MAXVL; `rip` advances. -/
def Permute.complete (p : Permute) (scale : Nat) (s : State) : State :=
  (s.writeZmm p.dest
    ((p.form.result ((s.readZmm p.src1).setWidth p.form.vl) (p.data scale s)
      ((s.readZmm p.dest).setWidth p.form.vl) (s.selected p.aaa) p.z).setWidth 512)).writeRip
    (p.next s)

/-- The step of an in-scope instruction after decoding (R90): #UD and the length limit, then #NM, then
the faults of the operand (R139), then the result, where the machine has what the form names (R5). -/
def Permute.run (p : Permute) (scale : Nat) (s : State) : Host.Outcome State Fault Refusal :=
  match s.report (decodeFaults p.ud p.len) with
  | some f => raise f
  | none =>
    if s.cfg.ts then raise .deviceNotAvailable
    else
      match s.report (p.operandFaults scale s) with
      | some f => raise f
      | none => if p.present s.cfg then .next (p.complete scale s) else .refused .absentState

/-- SRC2 of a VEX form: its register numbers are the first sixteen of the thirty-two (R14, R61). -/
def widen : RegMem 4 → RegMem 5
  | .reg r => .reg (r.setWidth 5)
  | .mem m => .mem m

/-- A VEX form as the shared step takes it: no writemask and no broadcast; registers 0 to 15 (R61,
R64). -/
def ofVex (f : Form) (ud : Bool) (e : VexFields) : Permute where
  form := f
  legacy := e.legacy
  len := e.length
  dest := e.dest.setWidth 5
  src1 := e.src1.setWidth 5
  src2 := widen e.src2
  aaa := 0#3
  z := false
  bcast := false
  ud := ud

/-- An EVEX form as the shared step takes it (R62, R64, R65). Where EVEX.b is set and does not mean
broadcast, `ud` holds. -/
def ofEvex (f : Form) (ud : Bool) (e : EvexFields) : Permute where
  form := f
  legacy := e.legacy
  len := e.length
  dest := e.dest
  src1 := e.src1
  src2 := e.src2
  aaa := e.aaa
  z := e.z
  bcast := e.b
  ud := ud

/-- The step of an encoding that is illegal by its length field (R63, R131): #UD, or the length limit's
#GP(0) where that applies too and nothing determines which (R139). -/
def runIllegal (len : Nat) (s : State) : Host.Outcome State Fault Refusal :=
  match s.report (decodeFaults true len) with
  | some f => raise f
  | none => raise .invalidOpcode

end Sys2Proof.Machine
end

