-- ==== Sys2Proof/Machine/Vpermd.lean ====
section
/-!
DEFINITION. VPERMD (41_vpermd.md): the three rows, and the three encodings of opcode 36h that raise
#UD by their length field.
-/

namespace Sys2Proof.Machine

/-- VPERMD ymm1, ymm2, ymm3/m256 (R110). An 8-bit displacement is not scaled (R60). -/
def execVpermdVex256 (e : VexFields) (s : State) : Host.Outcome State Fault Refusal :=
  (ofVex vpermd256 (udVpermdVex256 s.cfg e) e).run 1 s

/-- VPERMD ymm1 {k1}{z}, ymm2, ymm3/m256/m32bcst (R111). -/
def execVpermdEvex256 (e : EvexFields) (s : State) : Host.Outcome State Fault Refusal :=
  (ofEvex vpermd256 (udVpermdEvex256 s.cfg e) e).run (evexScale vpermd256 e.b) s

/-- VPERMD zmm1 {k1}{z}, zmm2, zmm3/m512/m32bcst (R112). -/
def execVpermdEvex512 (e : EvexFields) (s : State) : Host.Outcome State Fault Refusal :=
  (ofEvex vpermd512 (udVpermdEvex512 s.cfg e) e).run (evexScale vpermd512 e.b) s

/-- The pattern of VEX VPERMD with VEX.L = 0: #UD (R63, R131). -/
def execUdVpermdVexL0 (e : VexFields) (s : State) : Host.Outcome State Fault Refusal :=
  runIllegal e.length s

/-- The pattern of EVEX VPERMD with L'L = 00b: #UD (R63, R131). -/
def execUdVpermdEvexLL00 (e : EvexFields) (s : State) : Host.Outcome State Fault Refusal :=
  runIllegal e.length s

/-- The pattern of EVEX VPERMD with L'L = 11b: #UD (R63, R136). -/
def execUdVpermdEvexLL11 (e : EvexFields) (s : State) : Host.Outcome State Fault Refusal :=
  runIllegal e.length s

end Sys2Proof.Machine
end

