-- ==== Sys2Proof/Machine/Vpermw.lean ====
section
/-!
DEFINITION. VPERMW (42_vpermw.md): the three rows, none with a broadcast, and the encoding of opcode
8Dh that raises #UD by its length field.
-/

namespace Sys2Proof.Machine

/-- VPERMW xmm1 {k1}{z}, xmm2, xmm3/m128 (R120). -/
def execVpermwEvex128 (e : EvexFields) (s : State) : Host.Outcome State Fault Refusal :=
  (ofEvex vpermw128 (udVpermwEvex128 s.cfg e) e).run (evexScale vpermw128 e.b) s

/-- VPERMW ymm1 {k1}{z}, ymm2, ymm3/m256 (R121). -/
def execVpermwEvex256 (e : EvexFields) (s : State) : Host.Outcome State Fault Refusal :=
  (ofEvex vpermw256 (udVpermwEvex256 s.cfg e) e).run (evexScale vpermw256 e.b) s

/-- VPERMW zmm1 {k1}{z}, zmm2, zmm3/m512 (R122). -/
def execVpermwEvex512 (e : EvexFields) (s : State) : Host.Outcome State Fault Refusal :=
  (ofEvex vpermw512 (udVpermwEvex512 s.cfg e) e).run (evexScale vpermw512 e.b) s

/-- The pattern of EVEX VPERMW with L'L = 11b: #UD (R63, R136). -/
def execUdVpermwEvexLL11 (e : EvexFields) (s : State) : Host.Outcome State Fault Refusal :=
  runIllegal e.length s

end Sys2Proof.Machine
end

