-- ==== Sys2Proof/Machine/Dispatch.lean ====
section
/-! DEFINITION. The one dispatch from instructions to their meanings. -/

namespace Sys2Proof.Machine

def exec (i : Instr) (s : State) : Host.Outcome State Fault Refusal :=
  match i with
  | .vpermdVex256 e => Sys2Proof.Machine.execVpermdVex256 e s
  | .vpermdEvex256 e => Sys2Proof.Machine.execVpermdEvex256 e s
  | .vpermdEvex512 e => Sys2Proof.Machine.execVpermdEvex512 e s
  | .vpermwEvex128 e => Sys2Proof.Machine.execVpermwEvex128 e s
  | .vpermwEvex256 e => Sys2Proof.Machine.execVpermwEvex256 e s
  | .vpermwEvex512 e => Sys2Proof.Machine.execVpermwEvex512 e s
  | .udVpermdVexL0 e => Sys2Proof.Machine.execUdVpermdVexL0 e s
  | .udVpermdEvexLL00 e => Sys2Proof.Machine.execUdVpermdEvexLL00 e s
  | .udVpermdEvexLL11 e => Sys2Proof.Machine.execUdVpermdEvexLL11 e s
  | .udVpermwEvexLL11 e => Sys2Proof.Machine.execUdVpermwEvexLL11 e s

end Sys2Proof.Machine
end

