-- ==== Sys2Proof/Machine/Fetch.lean ====
section
/-!
DEFINITION. Fetching an instruction (R47, R69): which bytes the decoder is given, the refusals of a
run (R17, R72, R73, R163) and the faults of fetching (R47, R139 line 2).
-/

namespace Sys2Proof.Machine

/-- The number of legacy prefix bytes from address `a` on (R69 step 1); `fuel` bounds the addresses
looked at. -/
def prefixRun (m : Memory) : (fuel a : Nat) → Nat
  | 0, _ => 0
  | fuel + 1, a =>
    if (LegacyPrefix.ofByte (m.readByte a)).isSome then prefixRun m fuel (a + 1) + 1 else 0

/-- Bytes of the longest instruction without legacy prefixes (R50). -/
abbrev maxBody : Nat := 11

/-- The bytes the decoder is given: the legacy prefixes at `rip`, however many (R51), and as many bytes
after them as the longest form has, none beyond the end of the address space (R17). -/
def State.codeWindow (s : State) : List Byte :=
  s.mem.bytesFrom
    (min (prefixRun s.mem (addressSpace - s.rip.toNat) s.rip.toNat + maxBody)
      (addressSpace - s.rip.toNat))
    s.rip.toNat

/-- Why an instruction of `len` bytes at `rip` is refused for where it stands (R17, R163). -/
def State.placement (s : State) (len : Nat) : Option Refusal :=
  if addressSpace ≤ s.rip.toNat + len then some .addressWrap
  else if !allCanonical s.cfg.la57 len s.rip then some .nonCanonicalCode
  else if s.rip.toNat < s.cfg.codeEnd.toNat ∧ s.cfg.codeEnd.toNat < s.rip.toNat + len then
    some .straddlesCodeEnd
  else none

/-- What fetching gives: an instruction to execute, a fault, or a refusal. -/
inductive Fetched where
  | run (i : Instr)
  | fault (f : Fault)
  | refuse (r : Refusal)
  deriving DecidableEq, Repr

/-- A fetched instruction: with a byte the platform denies, one of the faults of R139 line 2, else the
instruction itself (its own faults of that line are its meaning's). -/
def State.fetchChecked (s : State) (i : Instr) : Fetched :=
  match fetchRun s.cfg i.length s.rip with
  | none => .run i
  | some f =>
    match s.report (ofFetchFault f :: decodeFaults (raisesUD s.cfg i) i.length) with
    | some g => .fault g
    | none => .fault (ofFetchFault f)

/-- Fetch and decode at `rip` (R47, R69): the refusals come first (R139 line 1). -/
def State.fetch (s : State) : Fetched :=
  if !s.cfg.mode64 then .refuse .notMode64
  else if s.rip = s.cfg.codeEnd then .refuse .endOfRun
  else
    match decode s.codeWindow with
    | .reject why => .refuse (.outOfScope why)
    | .ok i _ =>
      match s.placement i.length with
      | some r => .refuse r
      | none => s.fetchChecked i

end Sys2Proof.Machine
end

