-- ==== Sys2Proof/Machine/Step.lean ====
section
/-!
DEFINITION. One step of the machine (R90): fetch and decode, then execute. And placing an instruction
where the next step fetches it.
-/

namespace Sys2Proof.Machine

/-- One step (R90). `rip` is advanced by the meaning, so the step adds nothing around `exec`. -/
def step (s : State) : Host.Outcome State Fault Refusal :=
  match s.fetch with
  | .run i => exec i s
  | .fault f => raise f
  | .refuse r => .refused r

/-- The instruction of an opcode-table word stored at `rip`, zeros after it up to the longest
instruction. Nothing but memory changes. -/
def State.withFetchWord (s : State) (nbits w : Nat) : State :=
  { s with mem := s.mem.writeBytes s.rip (tableBytes nbits w) }

end Sys2Proof.Machine
end

