-- ==== Sys2Proof/Safety.lean ====
section
/-!
DEFINITION. The terms the claims are made in: the fields of an instruction, when its operand is
admitted, what a completed step leaves as it was (R26), which value each element of the destination
has (R92 to R95), and the invariant of a run (R30, R163).
-/

namespace Sys2Proof.Safety

open Sys2Proof.Machine

/-! ### Fields of an instruction -/

/-- The legacy prefixes of an instruction (R51). -/
def legacyOf : Instr → List LegacyPrefix
  | .vpermdVex256 e => e.legacy
  | .vpermdEvex256 e => e.legacy
  | .vpermdEvex512 e => e.legacy
  | .vpermwEvex128 e => e.legacy
  | .vpermwEvex256 e => e.legacy
  | .vpermwEvex512 e => e.legacy
  | .udVpermdVexL0 e => e.legacy
  | .udVpermdEvexLL00 e => e.legacy
  | .udVpermdEvexLL11 e => e.legacy
  | .udVpermwEvexLL11 e => e.legacy

/-- The destination register of an instruction (R61, R62). -/
def destOf : Instr → BitVec 5
  | .vpermdVex256 e => e.dest.setWidth 5
  | .vpermdEvex256 e => e.dest
  | .vpermdEvex512 e => e.dest
  | .vpermwEvex128 e => e.dest
  | .vpermwEvex256 e => e.dest
  | .vpermwEvex512 e => e.dest
  | .udVpermdVexL0 e => e.dest.setWidth 5
  | .udVpermdEvexLL00 e => e.dest
  | .udVpermdEvexLL11 e => e.dest
  | .udVpermwEvexLL11 e => e.dest

/-- The vector length of an instruction in bits; the illegal rows have none (R63). -/
def vlOf : Instr → Nat
  | .vpermdVex256 _ => 256
  | .vpermdEvex256 _ => 256
  | .vpermdEvex512 _ => 512
  | .vpermwEvex128 _ => 128
  | .vpermwEvex256 _ => 256
  | .vpermwEvex512 _ => 512
  | .udVpermdVexL0 _ => 0
  | .udVpermdEvexLL00 _ => 0
  | .udVpermdEvexLL11 _ => 0
  | .udVpermwEvexLL11 _ => 0

/-- The number of elements of an instruction; the illegal rows have none (R10). -/
def klOf : Instr → Nat
  | .vpermdVex256 _ => 8
  | .vpermdEvex256 _ => 8
  | .vpermdEvex512 _ => 16
  | .vpermwEvex128 _ => 8
  | .vpermwEvex256 _ => 16
  | .vpermwEvex512 _ => 32
  | .udVpermdVexL0 _ => 0
  | .udVpermdEvexLL00 _ => 0
  | .udVpermdEvexLL11 _ => 0
  | .udVpermwEvexLL11 _ => 0

/-- The vector registers an instruction names (R61, R62). -/
def vregsOf : Instr → List (BitVec 5)
  | .vpermdVex256 e => e.dest.setWidth 5 :: e.src1.setWidth 5 :: srcRegs (widen e.src2)
  | .vpermdEvex256 e => e.dest :: e.src1 :: srcRegs e.src2
  | .vpermdEvex512 e => e.dest :: e.src1 :: srcRegs e.src2
  | .vpermwEvex128 e => e.dest :: e.src1 :: srcRegs e.src2
  | .vpermwEvex256 e => e.dest :: e.src1 :: srcRegs e.src2
  | .vpermwEvex512 e => e.dest :: e.src1 :: srcRegs e.src2
  | .udVpermdVexL0 e => e.dest.setWidth 5 :: e.src1.setWidth 5 :: srcRegs (widen e.src2)
  | .udVpermdEvexLL00 e => e.dest :: e.src1 :: srcRegs e.src2
  | .udVpermdEvexLL11 e => e.dest :: e.src1 :: srcRegs e.src2
  | .udVpermwEvexLL11 e => e.dest :: e.src1 :: srcRegs e.src2

/-- The number of the writemask's register; zero where there is no writemask (R64). -/
def maskOf : Instr → BitVec 3
  | .vpermdVex256 _ => 0
  | .vpermdEvex256 e => e.aaa
  | .vpermdEvex512 e => e.aaa
  | .vpermwEvex128 e => e.aaa
  | .vpermwEvex256 e => e.aaa
  | .vpermwEvex512 e => e.aaa
  | .udVpermdVexL0 _ => 0
  | .udVpermdEvexLL00 e => e.aaa
  | .udVpermdEvexLL11 e => e.aaa
  | .udVpermwEvexLL11 e => e.aaa

/-! ### When an instruction executes -/

/-- R5's sizes are enough for the feature flags: those of a part with AVX2 only (no AVX512 flag and at
least the sixteen registers VEX reaches), or the decided MAXVL, NVEC and NK with opmask registers of 64
bits, or of at least 16 without AVX512BW (decisions D2, D3, D4). -/
def sizesSuffice (cfg : Launch) : Bool :=
  if cfg.hasAvx512f || cfg.hasAvx512vl || cfg.hasAvx512bw then
    cfg.maxVl = .bits512 && cfg.nvec = 32 && cfg.nk = 8 &&
      (cfg.kw = 64 || (!cfg.hasAvx512bw && decide (16 ≤ cfg.kw.val)))
  else decide (16 ≤ cfg.nvec.val)

/-- R5's sizes do not reach what the instruction needs: its vector length, a vector register it names,
or, under a writemask, the opmask register or a bit of it for each element (log entry 20). -/
def NeedsAbsentState (cfg : Launch) (i : Instr) : Prop :=
  cfg.maxVl.bits < vlOf i ∨ (∃ r ∈ vregsOf i, cfg.nvec.val ≤ r.toNat) ∨
    (maskOf i ≠ 0#3 ∧ (cfg.nk.val ≤ (maskOf i).toNat ∨ cfg.kw.val < klOf i))

/-- The feature flags, the enabling and TS let VEX VPERMD execute (R132, R134, R135). -/
def vexEnabled (cfg : Launch) : Bool := cfg.hasAvx2 && cfg.osAvxEnabled && !cfg.ts

/-- The feature flags `features`, the enabling and TS let an EVEX form execute (R132, R134, R135). -/
def evexEnabled (features : Bool) (cfg : Launch) : Bool :=
  features && cfg.osAvx512Enabled && !cfg.ts

/-- No encoding condition for a fault holds of a VEX form (R51, R71). -/
def vexLegal (e : VexFields) : Bool := !badLegacy e.legacy && decide (e.length ≤ 15)

/-- No encoding condition for a fault holds of an EVEX form (R51, R64, R65, R71). -/
def evexLegal (hasBroadcast : Bool) (e : EvexFields) : Bool :=
  !badLegacy e.legacy && (!e.b || (hasBroadcast && isMem e.src2)) && (!e.z || e.aaa != 0#3) &&
    decide (e.length ≤ 15)

/-- The read of `n` bytes is canonical, admitted by the platform and, where the read is
checked for alignment, aligned or unchecked by the launch parameter (R34, R36, R37, R161). -/
def readOk (s : State) (ea : Word64) (n : Nat) (checked : Bool) : Bool :=
  allCanonical s.cfg.la57 n ea && (memOK s.cfg ea n).isNone &&
    !(checked && s.cfg.alignCheck && ea.toNat % 4 != 0)

/-- SRC2 is a register, or a memory operand that can be read. -/
def operandOk (s : State) (legacy : List LegacyPrefix) (scale len n : Nat) (checked : Bool) :
    RegMem 5 → Bool
  | .reg _ => true
  | .mem m => readOk s (s.effAddr legacy scale (s.rip + BitVec.ofNat 64 len) m) n checked

/-- The read a memory operand makes: its address, its size in bytes, and whether it is checked for
alignment. -/
def readVia (s : State) (legacy : List LegacyPrefix) (scale len n : Nat) (checked : Bool) :
    RegMem 5 → Option (Word64 × Nat × Bool)
  | .reg _ => none
  | .mem m => some (s.effAddr legacy scale (s.rip + BitVec.ofNat 64 len) m, n, checked)

/-- The read an EVEX form of VPERMD makes: `n` bytes, or one doubleword under broadcast (R32, R60). -/
def vpermdRead (s : State) (n : Nat) (e : EvexFields) : Option (Word64 × Nat × Bool) :=
  if e.b then readVia s e.legacy 4 e.length 4 true e.src2
  else readVia s e.legacy n e.length n false e.src2

/-- The read a form of VPERMW makes: `n` bytes; none with EVEX.b, which is #UD (R32, R60, R65). -/
def vpermwRead (s : State) (n : Nat) (e : EvexFields) : Option (Word64 × Nat × Bool) :=
  if e.b then none else readVia s e.legacy n e.length n false e.src2

/-- The one data access an instruction makes, if any (R32); the illegal rows make none. -/
def operandRead (s : State) : Instr → Option (Word64 × Nat × Bool)
  | .vpermdVex256 e => readVia s e.legacy 1 e.length 32 false (widen e.src2)
  | .vpermdEvex256 e => vpermdRead s 32 e
  | .vpermdEvex512 e => vpermdRead s 64 e
  | .vpermwEvex128 e => vpermwRead s 16 e
  | .vpermwEvex256 e => vpermwRead s 32 e
  | .vpermwEvex512 e => vpermwRead s 64 e
  | .udVpermdVexL0 _ => none
  | .udVpermdEvexLL00 _ => none
  | .udVpermdEvexLL11 _ => none
  | .udVpermwEvexLL11 _ => none

/-- The memory operand of an instruction. -/
def memOf : Instr → Option MemOperand
  | .vpermdVex256 e => match e.src2 with | .reg _ => none | .mem m => some m
  | .vpermdEvex256 e => match e.src2 with | .reg _ => none | .mem m => some m
  | .vpermdEvex512 e => match e.src2 with | .reg _ => none | .mem m => some m
  | .vpermwEvex128 e => match e.src2 with | .reg _ => none | .mem m => some m
  | .vpermwEvex256 e => match e.src2 with | .reg _ => none | .mem m => some m
  | .vpermwEvex512 e => match e.src2 with | .reg _ => none | .mem m => some m
  | .udVpermdVexL0 e => match e.src2 with | .reg _ => none | .mem m => some m
  | .udVpermdEvexLL00 e => match e.src2 with | .reg _ => none | .mem m => some m
  | .udVpermdEvexLL11 e => match e.src2 with | .reg _ => none | .mem m => some m
  | .udVpermwEvexLL11 e => match e.src2 with | .reg _ => none | .mem m => some m

/-- No fault of R139's lines 2 and 3 applies: no #UD condition, at most 15 bytes, and not TS. -/
def reachesOperand (s : State) (i : Instr) : Bool :=
  !raisesUD s.cfg i && decide (i.length ≤ 15) && !s.cfg.ts

/-! ### The effective address over the integers (R58, R59) -/

/-- The displacement as an integer. -/
def dispInt (scale : Nat) : Disp → Int
  | .none => 0
  | .d8 d => d.toInt * scale
  | .d32 d => d.toInt

/-- The index term as an integer. -/
def indexInt (s : State) : Option SibIndex → Int
  | none => 0
  | some x => (s.readGpr x.reg).toNat * 2 ^ x.scale.toNat

/-- R59's sum before any reduction. -/
def addrSum (s : State) (scale : Nat) (next : Word64) : MemOperand → Int
  | .ripRel d => next.toNat + d.toInt
  | .based base d => dispInt scale d + (s.readGpr base).toNat
  | .sib base index d => dispInt scale d + (s.readGpr base).toNat + indexInt s index
  | .sibNoBase index d => d.toInt + indexInt s index

/-! ### What a completed step does -/

/-- Everything but `zmm[d]` and `rip` is as it was (R26, R97). -/
def Frame (s t : State) (d : BitVec 5) : Prop :=
  (∀ r, r ≠ d → t.readZmm r = s.readZmm r) ∧
  (∀ a, t.readMask a = s.readMask a) ∧
  (∀ g, t.readGpr g = s.readGpr g) ∧
  (∀ a, t.mem.readByte a = s.mem.readByte a) ∧
  t.cfg = s.cfg ∧ t.draw = s.draw

/-- Element `i` of SRC2 (R31, R92): of a register, of the memory operand (at `i * w/8` bytes from the
effective address, lowest byte least significant), or the one broadcast element. -/
def dataLane (s : State) (w : Nat) (legacy : List LegacyPrefix) (scale len : Nat) (bcast : Bool)
    (src2 : RegMem 5) (i : Nat) : BitVec w :=
  match src2 with
  | .reg r => elem (s.readZmm r) w i
  | .mem m =>
    (s.mem.readLE (w / 8)
      (s.effAddr legacy scale (s.rip + BitVec.ofNat 64 len) m +
        BitVec.ofNat 64 (if bcast then 0 else i * (w / 8)))).setWidth w

/-- SRC2 of VEX VPERMD as the 256-bit value the source's Operation block shifts (R99, R110). -/
def sourceVector256 (s : State) (e : VexFields) : BitVec 256 :=
  match e.src2 with
  | .reg r => (s.readZmm (r.setWidth 5)).setWidth 256
  | .mem m => s.mem.readLE 32 (s.effAddr e.legacy 1 (s.rip + BitVec.ofNat 64 e.length) m)

/-- The value of element `j` of the destination (R93 to R95), every operand taken from the state at
the start of the step (R91). -/
def resultLane (s : State) (w n : Nat) (dest src1 : BitVec 5) (aaa : BitVec 3) (z : Bool)
    (data : Nat → BitVec w) (j : Nat) : BitVec w :=
  if aaa = 0#3 ∨ (s.readMask aaa).getLsbD j = true then
    data ((s.readZmm src1).extractLsb' (w * j) (n + 1)).toNat
  else if z = true then 0#w
  else elem (s.readZmm dest) w j

/-- The destination holds `kl` elements `f 0`, `f 1`, ... of width `w`, and zero above them (R95, R96). -/
def DestHolds (t : State) (dest : BitVec 5) (w kl : Nat) (f : Nat → BitVec w) : Prop :=
  (∀ j, j < kl → elem (t.readZmm dest) w j = f j) ∧
  (∀ b, w * kl ≤ b → (t.readZmm dest).getLsbD b = false)

/-! ### The invariant of a run -/

/-- What R5's parameters say the machine does not have is zero: bits of vector registers from MAXVL on,
vector registers from NVEC on, and the same of the opmask registers (log entry 20). -/
def AbsentIsZero (s : State) : Prop :=
  (∀ r b, s.cfg.maxVl.bits ≤ b → (s.readZmm r).getLsbD b = false) ∧
  (∀ r, s.cfg.nvec.val ≤ r.toNat → s.readZmm r = 0#512) ∧
  (∀ a j, s.cfg.kw.val ≤ j → (s.readMask a).getLsbD j = false) ∧
  (∀ a, s.cfg.nk.val ≤ a.toNat → s.readMask a = 0#64)

/-- Memory is canonical, `rip` has not passed CODE_END, and absent state is zero (R5, R30, R163). -/
def Inv (s : State) : Prop :=
  s.mem.wf = true ∧ s.rip.toNat ≤ s.cfg.codeEnd.toNat ∧ AbsentIsZero s

/-- The two states agree but on bits of vector registers at and above `vl` and of opmask registers at
and above `kl` (R14, R15). -/
def AgreeBelow (vl kl : Nat) (s s' : State) : Prop :=
  (∀ r, (s'.readZmm r).setWidth vl = (s.readZmm r).setWidth vl) ∧
  (∀ a j, j < kl → (s'.readMask a).getLsbD j = (s.readMask a).getLsbD j) ∧
  s'.gpr = s.gpr ∧ s'.rip = s.rip ∧ s'.mem = s.mem ∧ s'.cfg = s.cfg ∧ s'.draw = s.draw

end Sys2Proof.Safety
end

