-- ==== Sys2Proof/Certificates/Slice0/Obligations.lean ====
section
/-!
DEFINITION. The statements for the provers. Each docstring names the rules of the spec it rests on.
-/

open Sys2Proof Sys2Proof.Machine Sys2Proof.Safety

/-! ### Decoding and encoding -/

/-- R50 to R66, R69: decoding the encoding of any well-formed instruction, with any bytes after it,
gives the instruction and those bytes back. -/
def Obligations.DecodeOfEncodeIsTheInstruction : Prop :=
  ∀ (i : Instr) (rest : List Byte), i.WellFormed → decode (encode i ++ rest) = .ok i rest

/-- R57, R58, R69, R71: what the decoder answers is well-formed, and the bytes it consumed are as many
as the instruction's length. -/
def Obligations.DecodedInstructionIsWellFormedAndMeasured : Prop :=
  ∀ (bytes rest : List Byte) (i : Instr), decode bytes = .ok i rest →
    i.WellFormed ∧ ∃ consumed, bytes = consumed ++ rest ∧ consumed.length = i.length

/-- R47, R69: the decoder's answer does not depend on the bytes after the instruction. -/
def Obligations.DecodeReadsOnlyTheInstructionBytes : Prop :=
  ∀ (consumed rest rest' : List Byte) (i : Instr), decode (consumed ++ rest) = .ok i rest →
    decode (consumed ++ rest') = .ok i rest'

/-- R50, R71: the encoding of a VEX form has 5 to 10 bytes and that of an EVEX form 6 to 11, besides
one for each legacy prefix. -/
def Obligations.EncodedLengthBounds : Prop :=
  ∀ i : Instr,
    match i with
    | .vpermdVex256 e | .udVpermdVexL0 e =>
      e.legacy.length + 5 ≤ (encode i).length ∧ (encode i).length ≤ e.legacy.length + 10
    | .vpermdEvex256 e | .vpermdEvex512 e | .vpermwEvex128 e | .vpermwEvex256 e | .vpermwEvex512 e
    | .udVpermdEvexLL00 e | .udVpermdEvexLL11 e | .udVpermwEvexLL11 e =>
      e.legacy.length + 6 ≤ (encode i).length ∧ (encode i).length ≤ e.legacy.length + 11

/-- R60, R62, R110 to R112, R120 to R122: the example words of the rules decode to the instructions
the rules name. -/
def Obligations.ExampleWordsDecode : Prop :=
  decode [0xC4, 0xE2, 0x75, 0x36, 0xC2] = .ok (.vpermdVex256 ⟨[], 0, 1, .reg 2⟩) [] ∧
  decode [0x62, 0xF2, 0x6D, 0x29, 0x36, 0xCB] =
    .ok (.vpermdEvex256 ⟨[], 1, 2, .reg 3, 1, false, false⟩) [] ∧
  decode [0x62, 0xF2, 0x6D, 0xD9, 0x36, 0x48, 0x01] =
    .ok (.vpermdEvex512 ⟨[], 1, 2, .mem (.based 0 (.d8 1)), 1, true, true⟩) [] ∧
  decode [0x62, 0xF2, 0xED, 0x08, 0x8D, 0xCB] =
    .ok (.vpermwEvex128 ⟨[], 1, 2, .reg 3, 0, false, false⟩) [] ∧
  decode [0x62, 0xF2, 0xED, 0x2A, 0x8D, 0xCB] =
    .ok (.vpermwEvex256 ⟨[], 1, 2, .reg 3, 2, false, false⟩) [] ∧
  decode [0x62, 0x22, 0xFD, 0x40, 0x8D, 0xF9] =
    .ok (.vpermwEvex512 ⟨[], 31, 16, .reg 17, 0, false, false⟩) []

/-- R53: behind any legacy prefixes the byte C5h starts no instruction in scope. -/
def Obligations.TwoByteVexIsRefused : Prop :=
  ∀ (legacy : List LegacyPrefix) (rest : List Byte),
    decode (legacy.map LegacyPrefix.toByte ++ 0xC5#8 :: rest) = .reject .twoByteVex

/-- R54, R66, R72: behind any legacy prefixes, VEX.W1 36h, EVEX.W1 36h, EVEX.W0 8Dh, and an EVEX prefix
with a reserved bit of P0 set or the fixed bit of P1 clear are rejected. -/
def Obligations.NeighbouringEncodingsAreRefused : Prop :=
  ∀ (legacy : List LegacyPrefix) (p0 p1 p2 : Byte) (op : Byte) (rest : List Byte),
    (p2.getLsbD 7 = true →
      ∃ why, decode (legacy.map LegacyPrefix.toByte ++ 0xC4#8 :: p1 :: p2 :: 0x36#8 :: rest) = .reject why) ∧
    (p1.getLsbD 7 = true →
      ∃ why, decode (legacy.map LegacyPrefix.toByte ++ 0x62#8 :: p0 :: p1 :: p2 :: 0x36#8 :: rest) =
        .reject why) ∧
    (p1.getLsbD 7 = false →
      ∃ why, decode (legacy.map LegacyPrefix.toByte ++ 0x62#8 :: p0 :: p1 :: p2 :: 0x8D#8 :: rest) =
        .reject why) ∧
    (p0.getLsbD 2 = true ∨ p0.getLsbD 3 = true ∨ p1.getLsbD 2 = false →
      ∃ why, decode (legacy.map LegacyPrefix.toByte ++ 0x62#8 :: p0 :: p1 :: p2 :: op :: rest) =
        .reject why)

/-! ### Legacy prefixes -/

/-- R51: the null segment prefixes have no part in the effective address; the last of 64h and 65h
chooses the base added; a REX byte that a prefix follows has no part in the #UD condition. -/
def Obligations.LegacyPrefixEffects : Prop :=
  (∀ (s : State) (legacy : List LegacyPrefix) (scale : Nat) (next : Word64) (m : MemOperand),
    s.effAddr legacy scale next m =
      s.effAddr (legacy.filter fun p => p != .es && p != .cs && p != .ss && p != .ds) scale next m) ∧
  (∀ (before after : List LegacyPrefix), (∀ p ∈ after, p ≠ .fs ∧ p ≠ .gs) →
    lastSeg (before ++ .fs :: after) = some .fs ∧ lastSeg (before ++ .gs :: after) = some .gs) ∧
  (∀ (before after : List LegacyPrefix) (w : BitVec 4) (p : LegacyPrefix),
    badLegacy (before ++ .rex w :: p :: after) = badLegacy (before ++ p :: after))

/-- R51, R44, R136: with 66h, F2h, F3h or F0h among the legacy prefixes, or a REX byte as the last of
them, every instruction of at most 15 bytes raises #UD, whatever its operands. -/
def Obligations.InvalidLegacyPrefixRaisesUD : Prop :=
  ∀ (i : Instr) (s : State), i.length ≤ 15 →
    (LegacyPrefix.opsize ∈ legacyOf i ∨ LegacyPrefix.repne ∈ legacyOf i ∨
      LegacyPrefix.rep ∈ legacyOf i ∨ LegacyPrefix.lock ∈ legacyOf i ∨
      ∃ before w, legacyOf i = before ++ [LegacyPrefix.rex w]) →
    exec i s = .fault .invalidOpcode

/-! ### What each instruction computes -/

/-- R110, with R90 to R97: VEX.256 VPERMD, on a machine of the sizes R5 decides (or those of a part with
AVX2 only), enabled and with an admitted operand, completes; each of the eight doublewords is the one
its index selects, the bits above are zero, `rip` advances, and nothing else changes. -/
def Obligations.VpermdVex256Completes : Prop :=
  ∀ (e : VexFields) (s : State), sizesSuffice s.cfg = true →
    vexEnabled s.cfg = true → vexLegal e = true →
    operandOk s e.legacy 1 e.length 32 false (widen e.src2) = true →
    ∃ t, exec (.vpermdVex256 e) s = .next t ∧
      DestHolds t (e.dest.setWidth 5) 32 8
        (resultLane s 32 2 (e.dest.setWidth 5) (e.src1.setWidth 5) 0#3 false
          (dataLane s 32 e.legacy 1 e.length false (widen e.src2))) ∧
      t.rip = s.rip + BitVec.ofNat 64 e.length ∧ Frame s t (e.dest.setWidth 5)

/-- R111, with R90 to R97: EVEX.256 VPERMD, also with broadcast, on a machine of the sizes R5 decides. -/
def Obligations.VpermdEvex256Completes : Prop :=
  ∀ (e : EvexFields) (s : State), sizesSuffice s.cfg = true →
    evexEnabled (s.cfg.hasAvx512f && s.cfg.hasAvx512vl) s.cfg = true → evexLegal true e = true →
    operandOk s e.legacy (if e.b then 4 else 32) e.length (if e.b then 4 else 32) e.b e.src2 = true →
    ∃ t, exec (.vpermdEvex256 e) s = .next t ∧
      DestHolds t e.dest 32 8
        (resultLane s 32 2 e.dest e.src1 e.aaa e.z
          (dataLane s 32 e.legacy (if e.b then 4 else 32) e.length e.b e.src2)) ∧
      t.rip = s.rip + BitVec.ofNat 64 e.length ∧ Frame s t e.dest

/-- R112, with R90 to R97: EVEX.512 VPERMD, also with broadcast, on a machine of the sizes R5 decides. -/
def Obligations.VpermdEvex512Completes : Prop :=
  ∀ (e : EvexFields) (s : State), sizesSuffice s.cfg = true →
    evexEnabled s.cfg.hasAvx512f s.cfg = true → evexLegal true e = true →
    operandOk s e.legacy (if e.b then 4 else 64) e.length (if e.b then 4 else 64) e.b e.src2 = true →
    ∃ t, exec (.vpermdEvex512 e) s = .next t ∧
      DestHolds t e.dest 32 16
        (resultLane s 32 3 e.dest e.src1 e.aaa e.z
          (dataLane s 32 e.legacy (if e.b then 4 else 64) e.length e.b e.src2)) ∧
      t.rip = s.rip + BitVec.ofNat 64 e.length ∧ Frame s t e.dest

/-- R120, with R90 to R97: EVEX.128 VPERMW, on a machine of the sizes R5 decides. -/
def Obligations.VpermwEvex128Completes : Prop :=
  ∀ (e : EvexFields) (s : State), sizesSuffice s.cfg = true →
    evexEnabled (s.cfg.hasAvx512bw && s.cfg.hasAvx512vl) s.cfg = true → evexLegal false e = true →
    operandOk s e.legacy 16 e.length 16 false e.src2 = true →
    ∃ t, exec (.vpermwEvex128 e) s = .next t ∧
      DestHolds t e.dest 16 8
        (resultLane s 16 2 e.dest e.src1 e.aaa e.z
          (dataLane s 16 e.legacy 16 e.length false e.src2)) ∧
      t.rip = s.rip + BitVec.ofNat 64 e.length ∧ Frame s t e.dest

/-- R121, with R90 to R97: EVEX.256 VPERMW, on a machine of the sizes R5 decides. -/
def Obligations.VpermwEvex256Completes : Prop :=
  ∀ (e : EvexFields) (s : State), sizesSuffice s.cfg = true →
    evexEnabled (s.cfg.hasAvx512bw && s.cfg.hasAvx512vl) s.cfg = true → evexLegal false e = true →
    operandOk s e.legacy 32 e.length 32 false e.src2 = true →
    ∃ t, exec (.vpermwEvex256 e) s = .next t ∧
      DestHolds t e.dest 16 16
        (resultLane s 16 3 e.dest e.src1 e.aaa e.z
          (dataLane s 16 e.legacy 32 e.length false e.src2)) ∧
      t.rip = s.rip + BitVec.ofNat 64 e.length ∧ Frame s t e.dest

/-- R122, with R90 to R97: EVEX.512 VPERMW, on a machine of the sizes R5 decides. -/
def Obligations.VpermwEvex512Completes : Prop :=
  ∀ (e : EvexFields) (s : State), sizesSuffice s.cfg = true →
    evexEnabled s.cfg.hasAvx512bw s.cfg = true → evexLegal false e = true →
    operandOk s e.legacy 64 e.length 64 false e.src2 = true →
    ∃ t, exec (.vpermwEvex512 e) s = .next t ∧
      DestHolds t e.dest 16 32
        (resultLane s 16 4 e.dest e.src1 e.aaa e.z
          (dataLane s 16 e.legacy 64 e.length false e.src2)) ∧
      t.rip = s.rip + BitVec.ofNat 64 e.length ∧ Frame s t e.dest

/-- R26, R97: a completed step of any instruction changes its destination register and `rip` and
nothing else. -/
def Obligations.CompletedStepFrame : Prop :=
  ∀ (i : Instr) (s t : State), exec i s = .next t →
    Frame s t (destOf i) ∧ t.rip = s.rip + BitVec.ofNat 64 i.length

/-- R96: a completed step zeroes the destination above its vector length, whatever the writemask and
the masking kind, also where the memory operand is broadcast. -/
def Obligations.UpperBitsAreZeroedWhateverTheMask : Prop :=
  ∀ (i : Instr) (s t : State) (b : Nat), exec i s = .next t → vlOf i ≤ b →
    (t.readZmm (destOf i)).getLsbD b = false

/-- R95: an element whose mask bit is 0 keeps its old value under merging-masking and is 0 under
zeroing-masking, for the EVEX forms of both instructions. -/
def Obligations.MaskedOffElements : Prop :=
  ∀ (e : EvexFields) (s t : State) (j : Nat), e.aaa ≠ 0#3 → (s.readMask e.aaa).getLsbD j = false →
    (exec (.vpermdEvex256 e) s = .next t → j < 8 →
      elem (t.readZmm e.dest) 32 j = if e.z then 0#32 else elem (s.readZmm e.dest) 32 j) ∧
    (exec (.vpermdEvex512 e) s = .next t → j < 16 →
      elem (t.readZmm e.dest) 32 j = if e.z then 0#32 else elem (s.readZmm e.dest) 32 j) ∧
    (exec (.vpermwEvex128 e) s = .next t → j < 8 →
      elem (t.readZmm e.dest) 16 j = if e.z then 0#16 else elem (s.readZmm e.dest) 16 j) ∧
    (exec (.vpermwEvex256 e) s = .next t → j < 16 →
      elem (t.readZmm e.dest) 16 j = if e.z then 0#16 else elem (s.readZmm e.dest) 16 j) ∧
    (exec (.vpermwEvex512 e) s = .next t → j < 32 →
      elem (t.readZmm e.dest) 16 j = if e.z then 0#16 else elem (s.readZmm e.dest) 16 j)

/-- R99, R110: the source's VEX.256 block, a shift of all of SRC2 by 32 times the index and the low
doubleword of that, gives the same elements. -/
def Obligations.VexShiftFormulaAgrees : Prop :=
  ∀ (e : VexFields) (s t : State) (j : Nat), exec (.vpermdVex256 e) s = .next t → j < 8 →
    elem (t.readZmm (e.dest.setWidth 5)) 32 j =
      (sourceVector256 s e >>>
        (((s.readZmm (e.src1.setWidth 5)).extractLsb' (32 * j) 3).toNat * 32)).setWidth 32

/-- R99: VEX.256 VPERMD and EVEX.256 VPERMD without writemask and broadcast, given the same registers
or memory operands at the same effective address, leave the same value in the destination. -/
def Obligations.VexAndUnmaskedEvexAgree : Prop :=
  ∀ (e : VexFields) (e' : EvexFields) (s t t' : State),
    e'.dest = e.dest.setWidth 5 → e'.src1 = e.src1.setWidth 5 → e'.src2 = widen e.src2 →
    e'.aaa = 0#3 → e'.b = false →
    (∀ m, e.src2 = .mem m →
      s.effAddr e.legacy 1 (s.rip + BitVec.ofNat 64 e.length) m =
        s.effAddr e'.legacy 32 (s.rip + BitVec.ofNat 64 e'.length) m) →
    exec (.vpermdVex256 e) s = .next t → exec (.vpermdEvex256 e') s = .next t' →
    t.readZmm (e.dest.setWidth 5) = t'.readZmm (e.dest.setWidth 5)

/-- R100: with every index equal to `c` the unmasked result is element `c` of SRC2 everywhere; with
index `j` in element `j` it is SRC2. -/
def Obligations.RepeatedAndIdentityIndices : Prop :=
  ∀ (f : Form) (s1 s2 d0 : BitVec f.vl) (z : Bool),
    (∀ c, (∀ j, j < f.kl → f.index s1 j = c) →
      ∀ j, j < f.kl → elem (f.result s1 s2 d0 (fun _ => true) z) f.w j = elem s2 f.w c) ∧
    ((∀ j, j < f.kl → f.index s1 j = j) → f.result s1 s2 d0 (fun _ => true) z = s2)

/-- R93, R98: in each of the five shapes every index is below the number of elements. -/
def Obligations.EveryIndexIsInRange : Prop :=
  ∀ f ∈ [vpermd256, vpermd512, vpermw128, vpermw256, vpermw512], ∀ (s1 : BitVec f.vl) (j : Nat),
    f.index s1 j < f.kl

/-- R14, R15, R98: bits of vector registers at and above the vector length, and of opmask registers at
and above the number of elements, affect neither whether the instruction completes, which fault it
raises or whether it is refused, nor what it leaves in the destination. -/
def Obligations.BitsAboveTheLengthAreNotRead : Prop :=
  ∀ (i : Instr) (s s' : State), AgreeBelow (vlOf i) (klOf i) s s' →
    (∀ f, exec i s = .fault f → exec i s' = .fault f) ∧
    (∀ r, exec i s = .refused r → exec i s' = .refused r) ∧
    (∀ t, exec i s = .next t →
      ∃ t', exec i s' = .next t' ∧ t'.readZmm (destOf i) = t.readZmm (destOf i) ∧ t'.rip = t.rip)

/-- R93, R97: no bit of an index element above the index field matters. Two states that agree but on
those bits of the index register, which is not also the destination or SRC2, leave the same value in
the destination of EVEX.512 VPERMD. -/
def Obligations.HighIndexBitsAreIgnored : Prop :=
  ∀ (e : EvexFields) (s t t' : State) (v : BitVec 512), e.src1 ≠ e.dest → e.src2 ≠ .reg e.src1 →
    (∀ j, j < 16 → v.extractLsb' (32 * j) 4 = (s.readZmm e.src1).extractLsb' (32 * j) 4) →
    exec (.vpermdEvex512 e) s = .next t → exec (.vpermdEvex512 e) (s.writeZmm e.src1 v) = .next t' →
    t'.readZmm e.dest = t.readZmm e.dest

/-- R65, R92: under broadcast every selected element is the one doubleword, whatever the indices. -/
def Obligations.BroadcastGivesOneDoubleword : Prop :=
  ∀ (e : EvexFields) (s t : State) (m : MemOperand) (j : Nat), e.b = true → e.src2 = .mem m →
    (e.aaa = 0#3 ∨ (s.readMask e.aaa).getLsbD j = true) →
    (exec (.vpermdEvex256 e) s = .next t → j < 8 →
      elem (t.readZmm e.dest) 32 j =
        (s.mem.readLE 4 (s.effAddr e.legacy 4 (s.rip + BitVec.ofNat 64 e.length) m) : BitVec 32)) ∧
    (exec (.vpermdEvex512 e) s = .next t → j < 16 →
      elem (t.readZmm e.dest) 32 j =
        (s.mem.readLE 4 (s.effAddr e.legacy 4 (s.rip + BitVec.ofNat 64 e.length) m) : BitVec 32))

/-! ### Memory and addresses -/

/-- R31: a read of `n` bytes is little-endian, and wraps at the top of the address space. -/
def Obligations.MemReadIsLittleEndian : Prop :=
  ∀ (m : Memory) (n : Nat) (a : Word64) (t : Nat), t < n →
    (m.readLE n a).extractLsb' (8 * t) 8 = m.readByte ((a.toNat + t) % 2 ^ 64)

/-- R58, R59: the effective address is R59's sum over the integers, reduced modulo 2^64, or modulo 2^32
under 67h, and the segment base added modulo 2^64. -/
def Obligations.EffectiveAddressIsTheReducedSum : Prop :=
  ∀ (s : State) (legacy : List LegacyPrefix) (scale : Nat) (next : Word64) (m : MemOperand),
    ((s.effAddr legacy scale next m).toNat : Int) =
      ((if LegacyPrefix.addr32 ∈ legacy then addrSum s scale next m % 2 ^ 32
          else addrSum s scale next m % 2 ^ 64) +
        ((segBase s.cfg (lastSeg legacy)).toNat : Int)) % 2 ^ 64

/-- R34: every predicate on addresses and read sizes is some list of denials (the model's choice of
representation, log entry 6). -/
def Obligations.EveryPlatformPredicateIsRepresentable : Prop :=
  ∀ (cfg : Launch) (answer : Word64 → Nat → Option MemFault),
    ∃ denied : List ReadDenial, ∀ (a : Word64) (n : Nat), n = 4 ∨ n = 16 ∨ n = 32 ∨ n = 64 →
      memOK { cfg with readDenied := denied } a n = answer a n

/-! ### Exceptions -/

/-- R130, R140: on a machine of the sizes R5 decides (or those of a part with AVX2 only) executing a
decoded instruction ends in a next state or in an exception, never in a refusal. -/
def Obligations.ExecutionCompletesOrFaults : Prop :=
  ∀ (i : Instr) (s : State), sizesSuffice s.cfg = true →
    (∃ t, exec i s = .next t) ∨ ∃ f, exec i s = .fault f

/-- Where the feature flags promise more than R5's sizes give, an instruction that needs what is absent
is refused if no exception applies, and nothing else is refused (the model's choice, log entry 20). -/
def Obligations.AbsentStateIsRefused : Prop :=
  ∀ (i : Instr) (s : State),
    (reachesOperand s i = true →
      (∀ ea n checked, operandRead s i = some (ea, n, checked) → readOk s ea n checked = true) →
      NeedsAbsentState s.cfg i → exec i s = .refused .absentState) ∧
    (∀ r, exec i s = .refused r → r = .absentState ∧ NeedsAbsentState s.cfg i)

/-- R5: on a part with AVX2 only (MAXVL 256, the AVX512 flags clear) every instruction of at most 15 bytes
but VEX.256 VPERMD raises #UD, and that one completes where its registers are there, it is enabled and
its operand is admitted; no vector register then holds a bit from 256 on, if none did before (log
entry 20). -/
def Obligations.Avx2OnlyPartRunsOnlyTheVexForm : Prop :=
  ∀ s : State, s.cfg.maxVl = .bits256 → s.cfg.hasAvx512f = false → s.cfg.hasAvx512vl = false →
    s.cfg.hasAvx512bw = false →
    (∀ i : Instr, i.length ≤ 15 → (∀ e, i ≠ .vpermdVex256 e) → exec i s = .fault .invalidOpcode) ∧
    (∀ e : VexFields, 16 ≤ s.cfg.nvec.val → vexEnabled s.cfg = true → vexLegal e = true →
      operandOk s e.legacy 1 e.length 32 false (widen e.src2) = true →
      ∃ t, exec (.vpermdVex256 e) s = .next t ∧
        (AbsentIsZero s → ∀ r b, 256 ≤ b → (t.readZmm r).getLsbD b = false))

/-- R131: the VEX row with L = 0 and EVEX VPERMD with L'L = 00b are not 128-bit forms but raise #UD;
VPERMW with L'L = 00b is the 128-bit form. -/
def Obligations.LengthZeroOfVpermdRaisesUD : Prop :=
  (∀ (legacy : List LegacyPrefix) (p1 p2 : Byte) (rest rest' : List Byte) (i : Instr) (s : State),
    decode (legacy.map LegacyPrefix.toByte ++ 0xC4#8 :: p1 :: p2 :: 0x36#8 :: rest) = .ok i rest' →
    p2.getLsbD 2 = false → i.length ≤ 15 →
    (∃ e, i = .udVpermdVexL0 e) ∧ exec i s = .fault .invalidOpcode) ∧
  (∀ (legacy : List LegacyPrefix) (p0 p1 p2 : Byte) (rest rest' : List Byte) (i : Instr) (s : State),
    decode (legacy.map LegacyPrefix.toByte ++ 0x62#8 :: p0 :: p1 :: p2 :: 0x36#8 :: rest) = .ok i rest' →
    p2.extractLsb' 5 2 = 0#2 → i.length ≤ 15 →
    (∃ e, i = .udVpermdEvexLL00 e) ∧ exec i s = .fault .invalidOpcode) ∧
  (∀ (legacy : List LegacyPrefix) (p0 p1 p2 : Byte) (rest rest' : List Byte) (i : Instr),
    decode (legacy.map LegacyPrefix.toByte ++ 0x62#8 :: p0 :: p1 :: p2 :: 0x8D#8 :: rest) = .ok i rest' →
    p2.extractLsb' 5 2 = 0#2 → ∃ e, i = .vpermwEvex128 e)

/-- R63, R136: EVEX.L'L = 11b raises #UD for both instructions. -/
def Obligations.ReservedLengthRaisesUD : Prop :=
  ∀ (e : EvexFields) (s : State), e.length ≤ 15 →
    exec (.udVpermdEvexLL11 e) s = .fault .invalidOpcode ∧
    exec (.udVpermwEvexLL11 e) s = .fault .invalidOpcode

/-- R65, R136: EVEX.b with a register SRC2 raises #UD, and EVEX.b on VPERMW always does. -/
def Obligations.BroadcastBitWithoutBroadcastRaisesUD : Prop :=
  ∀ (e : EvexFields) (s : State), e.b = true → e.length ≤ 15 →
    (∀ r, e.src2 = .reg r →
      exec (.vpermdEvex256 e) s = .fault .invalidOpcode ∧
      exec (.vpermdEvex512 e) s = .fault .invalidOpcode) ∧
    exec (.vpermwEvex128 e) s = .fault .invalidOpcode ∧
    exec (.vpermwEvex256 e) s = .fault .invalidOpcode ∧
    exec (.vpermwEvex512 e) s = .fault .invalidOpcode

/-- R64, R136: z = 1 with aaa = 000b raises #UD. -/
def Obligations.ZeroingWithoutMaskRaisesUD : Prop :=
  ∀ (e : EvexFields) (s : State), e.z = true → e.aaa = 0#3 → e.length ≤ 15 →
    exec (.vpermdEvex256 e) s = .fault .invalidOpcode ∧
    exec (.vpermdEvex512 e) s = .fault .invalidOpcode ∧
    exec (.vpermwEvex128 e) s = .fault .invalidOpcode ∧
    exec (.vpermwEvex256 e) s = .fault .invalidOpcode ∧
    exec (.vpermwEvex512 e) s = .fault .invalidOpcode

/-- R132: a row whose feature flags are not all set raises #UD. -/
def Obligations.MissingFeatureFlagRaisesUD : Prop :=
  ∀ (v : VexFields) (e : EvexFields) (s : State),
    (s.cfg.hasAvx2 = false → v.length ≤ 15 → exec (.vpermdVex256 v) s = .fault .invalidOpcode) ∧
    (¬(s.cfg.hasAvx512f = true ∧ s.cfg.hasAvx512vl = true) → e.length ≤ 15 →
      exec (.vpermdEvex256 e) s = .fault .invalidOpcode) ∧
    (s.cfg.hasAvx512f = false → e.length ≤ 15 →
      exec (.vpermdEvex512 e) s = .fault .invalidOpcode) ∧
    (¬(s.cfg.hasAvx512bw = true ∧ s.cfg.hasAvx512vl = true) → e.length ≤ 15 →
      exec (.vpermwEvex128 e) s = .fault .invalidOpcode ∧
      exec (.vpermwEvex256 e) s = .fault .invalidOpcode) ∧
    (s.cfg.hasAvx512bw = false → e.length ≤ 15 →
      exec (.vpermwEvex512 e) s = .fault .invalidOpcode)

/-- R134: without the enabling of its vector state the VEX form, and every EVEX form of every length,
raises #UD. -/
def Obligations.MissingEnablingRaisesUD : Prop :=
  ∀ (v : VexFields) (e : EvexFields) (s : State),
    (s.cfg.osAvxEnabled = false → v.length ≤ 15 →
      exec (.vpermdVex256 v) s = .fault .invalidOpcode) ∧
    (s.cfg.osAvx512Enabled = false → e.length ≤ 15 →
      exec (.vpermdEvex256 e) s = .fault .invalidOpcode ∧
      exec (.vpermdEvex512 e) s = .fault .invalidOpcode ∧
      exec (.vpermwEvex128 e) s = .fault .invalidOpcode ∧
      exec (.vpermwEvex256 e) s = .fault .invalidOpcode ∧
      exec (.vpermwEvex512 e) s = .fault .invalidOpcode)

/-- R135: with TS set and no #UD condition an instruction of at most 15 bytes raises #NM, with or
without a memory operand. -/
def Obligations.TaskSwitchedRaisesNM : Prop :=
  ∀ (i : Instr) (s : State), raisesUD s.cfg i = false → i.length ≤ 15 → s.cfg.ts = true →
    exec i s = .fault .deviceNotAvailable

/-- R71, R139: an instruction of more than 15 bytes raises #GP(0), or, where a #UD condition holds too,
one of the two. -/
def Obligations.OverlongInstructionFaults : Prop :=
  ∀ (i : Instr) (s : State), 15 < i.length →
    (raisesUD s.cfg i = false → exec i s = .fault .generalProtection) ∧
    (raisesUD s.cfg i = true →
      exec i s = .fault .invalidOpcode ∨ exec i s = .fault .generalProtection)

/-- R139: a fault that only the operand can raise is reported only where no #UD condition, no length
above 15 and no TS is. -/
def Obligations.OperandFaultsComeLast : Prop :=
  ∀ (i : Instr) (s : State) (c : BitVec 32),
    (exec i s = .fault .stackFault ∨ exec i s = .fault (.pageFault c) ∨
      exec i s = .fault .alignmentCheck) →
    reachesOperand s i = true

/-- R34, R137: where nothing else applies, the fault is the platform's answer to the read. -/
def Obligations.PlatformAnswerIsTheFault : Prop :=
  ∀ (i : Instr) (s : State) (ea : Word64) (n : Nat) (checked : Bool) (f : MemFault),
    operandRead s i = some (ea, n, checked) → reachesOperand s i = true →
    allCanonical s.cfg.la57 n ea = true → memOK s.cfg ea n = some f →
    (checked = false ∨ s.cfg.alignCheck = false ∨ ea.toNat % 4 = 0) →
    exec i s = .fault (ofMemFault f)

/-- R37: where nothing else applies, a non-canonical operand raises #SS(0) if the access goes through
SS and #GP(0) if not (the model makes this check itself, log entry 8). -/
def Obligations.NonCanonicalOperandFaults : Prop :=
  ∀ (i : Instr) (s : State) (ea : Word64) (n : Nat) (checked : Bool) (m : MemOperand),
    operandRead s i = some (ea, n, checked) → memOf i = some m → reachesOperand s i = true →
    allCanonical s.cfg.la57 n ea = false → memOK s.cfg ea n = none →
    (checked = false ∨ s.cfg.alignCheck = false ∨ ea.toNat % 4 = 0) →
    exec i s =
      .fault (if usesStackSegment (legacyOf i) m then .stackFault else .generalProtection)

/-- R37: an address is canonical when bits 63:47 are all equal (48-bit linear addresses), or bits 63:56
(57-bit). -/
def Obligations.CanonicalMeansUpperBitsEqual : Prop :=
  ∀ a : Word64,
    (canonical false a = true ↔ ∀ b, 47 ≤ b → b < 64 → a.getLsbD b = a.getLsbD 63) ∧
    (canonical true a = true ↔ ∀ b, 56 ≤ b → b < 64 → a.getLsbD b = a.getLsbD 63)

/-- R35: whatever the writemask and the masking kind, an instruction whose whole operand cannot be read
faults. -/
def Obligations.MaskDoesNotSuppressFaults : Prop :=
  ∀ (i : Instr) (s : State) (ea : Word64) (n : Nat) (checked : Bool),
    operandRead s i = some (ea, n, checked) → readOk s ea n checked = false →
    ∃ f, exec i s = .fault f

/-- R36: #AC(0) is raised by the broadcast doubleword of an EVEX VPERMD at an address that is not a
multiple of four under alignment checking, where nothing else applies, and by no other access. -/
def Obligations.AlignmentCheckOnlyOnBroadcast : Prop :=
  (∀ (e : EvexFields) (s : State) (m : MemOperand) (ea : Word64), e.b = true → e.src2 = .mem m →
    ea = s.effAddr e.legacy 4 (s.rip + BitVec.ofNat 64 e.length) m →
    s.cfg.alignCheck = true → ea.toNat % 4 ≠ 0 →
    allCanonical s.cfg.la57 4 ea = true → memOK s.cfg ea 4 = none →
    (reachesOperand s (.vpermdEvex256 e) = true →
      exec (.vpermdEvex256 e) s = .fault .alignmentCheck) ∧
    (reachesOperand s (.vpermdEvex512 e) = true →
      exec (.vpermdEvex512 e) s = .fault .alignmentCheck)) ∧
  (∀ (i : Instr) (s : State), exec i s = .fault .alignmentCheck →
    s.cfg.alignCheck = true ∧
    ∃ e m, (i = .vpermdEvex256 e ∨ i = .vpermdEvex512 e) ∧ e.b = true ∧ e.src2 = .mem m ∧
      (s.effAddr e.legacy 4 (s.rip + BitVec.ofNat 64 e.length) m).toNat % 4 ≠ 0)

/-- R137: with a register SRC2 no fault of the operand can occur. -/
def Obligations.RegisterOperandRaisesNoMemoryFault : Prop :=
  ∀ (i : Instr) (s : State) (f : Fault), memOf i = none → exec i s = .fault f →
    f = .invalidOpcode ∨ f = .deviceNotAvailable ∨ (f = .generalProtection ∧ 15 < i.length)

/-! ### The launch parameters -/

/-- R20, R25, R132, R134: with the control registers as after a reset (CR4 zero), whatever the other
registers and the base configuration, no instruction completes. -/
def Obligations.NothingExecutesBeforeEnabling : Prop :=
  ∀ (i : Instr) (s t : State) (c : ControlRegs) (base : Launch), c.cr4 = 0 →
    s.cfg = summarise c base → exec i s ≠ .next t

/-- R20, R162: with the CPUID bits, CR4.OSXSAVE and XCR0 set as software must set them and CR0.TS clear,
on a machine of the sizes R5 decides, every legal instruction with a register SRC2 completes. -/
def Obligations.EnabledRegisterFormsExecute : Prop :=
  ∀ (v : VexFields) (e : EvexFields) (s : State) (c : ControlRegs) (base : Launch),
    s.cfg = summarise c base → sizesSuffice s.cfg = true →
    c.cpuid7Ebx.getLsbD 5 = true → c.cpuid7Ebx.getLsbD 16 = true → c.cpuid7Ebx.getLsbD 30 = true →
    c.cpuid7Ebx.getLsbD 31 = true → c.cr4.getLsbD 18 = true → c.xcr0 &&& 0xE6 = 0xE6 →
    c.cr0.getLsbD 3 = false →
    (vexLegal v = true → isMem v.src2 = false → ∃ t, exec (.vpermdVex256 v) s = .next t) ∧
    (evexLegal false e = true → isMem e.src2 = false →
      (∃ t, exec (.vpermdEvex256 e) s = .next t) ∧ (∃ t, exec (.vpermdEvex512 e) s = .next t) ∧
      (∃ t, exec (.vpermwEvex128 e) s = .next t) ∧ (∃ t, exec (.vpermwEvex256 e) s = .next t) ∧
      ∃ t, exec (.vpermwEvex512 e) s = .next t)

/-! ### The step -/

/-- R69, R90: a step executes the instruction the bytes at `rip` decode to, where it may stand there
and the platform lets it be fetched; the step adds nothing around `exec`. -/
def Obligations.StepRunsTheDecodedInstruction : Prop :=
  ∀ (s : State) (i : Instr) (rest : List Byte), s.cfg.mode64 = true → s.rip ≠ s.cfg.codeEnd →
    decode s.codeWindow = .ok i rest → s.placement i.length = none →
    fetchRun s.cfg i.length s.rip = none → step s = exec i s

/-- R47, R69, R90: where the bytes of a well-formed instruction's encoding stand at `rip`, inside the
code and the canonical addresses, and are fetchable, a step executes that instruction. That code above
CODE_END executes is the model's choice (log entry 9). -/
def Obligations.StoredEncodingIsExecuted : Prop :=
  ∀ (s : State) (i : Instr), i.WellFormed → s.cfg.mode64 = true → s.rip ≠ s.cfg.codeEnd →
    (∀ t (h : t < (encode i).length), s.mem.readByte (s.rip.toNat + t) = (encode i)[t]) →
    s.rip.toNat + i.length < 2 ^ 64 → allCanonical s.cfg.la57 i.length s.rip = true →
    (s.cfg.codeEnd.toNat ≤ s.rip.toNat ∨ s.rip.toNat + i.length ≤ s.cfg.codeEnd.toNat) →
    (∀ t, t < i.length → fetchOK s.cfg (s.rip + BitVec.ofNat 64 t) = none) →
    step s = exec i s

/-- R47, R139: where a byte of the instruction may not be fetched the step faults: with the platform's
answer if no #UD condition and no length above 15 holds, else with one of the faults that apply (what
the answer is asked of: log entry 10). -/
def Obligations.DeniedFetchFaults : Prop :=
  ∀ (s : State) (i : Instr) (rest : List Byte) (f : FetchFault), s.cfg.mode64 = true →
    s.rip ≠ s.cfg.codeEnd → decode s.codeWindow = .ok i rest → s.placement i.length = none →
    fetchRun s.cfg i.length s.rip = some f →
    (raisesUD s.cfg i = false → i.length ≤ 15 → step s = .fault (ofFetchFault f)) ∧
    ∃ g, step s = .fault g ∧
      (g = ofFetchFault f ∨ (g = .invalidOpcode ∧ raisesUD s.cfg i = true) ∨
        (g = .generalProtection ∧ 15 < i.length))

/-- R17, R72, R73, R163: a step is refused outside 64-bit mode, at CODE_END, for bytes out of scope,
and for an instruction that would pass CODE_END, the top of the address space, or a non-canonical
address. That the normal end is a refusal is the model's choice (log entry 9). -/
def Obligations.RefusedSteps : Prop :=
  ∀ s : State,
    (s.cfg.mode64 = false → step s = .refused .notMode64) ∧
    (s.cfg.mode64 = true → s.rip = s.cfg.codeEnd → step s = .refused .endOfRun) ∧
    (∀ why, s.cfg.mode64 = true → s.rip ≠ s.cfg.codeEnd → decode s.codeWindow = .reject why →
      step s = .refused (.outOfScope why)) ∧
    (∀ i rest, s.cfg.mode64 = true → s.rip ≠ s.cfg.codeEnd → decode s.codeWindow = .ok i rest →
      (2 ^ 64 ≤ s.rip.toNat + i.length ∨ allCanonical s.cfg.la57 i.length s.rip = false ∨
        (s.rip.toNat < s.cfg.codeEnd.toNat ∧ s.cfg.codeEnd.toNat < s.rip.toNat + i.length)) →
      ∃ r, step s = .refused r)

/-- R17, R71: a completed step advances `rip` by the length of the instruction decoded there, 5 to 15
bytes, without wrapping. -/
def Obligations.CompletedStepAdvancesByTheLength : Prop :=
  ∀ s t : State, step s = .next t →
    ∃ i rest, decode s.codeWindow = .ok i rest ∧ exec i s = .next t ∧
      t.rip.toNat = s.rip.toNat + i.length ∧ 5 ≤ i.length ∧ i.length ≤ 15

/-- R5, R30, R163: from every state whose memory is canonical, whose `rip` has not passed CODE_END, and
in which what R5's sizes say is absent is zero, a completed step gives such a state (that absent state
is held as zeros is the model's choice, log entry 20). -/
def Obligations.StepKeepsTheInvariant : Prop :=
  ∀ s t : State, Inv s → step s = .next t → Inv t

/-- R161, R163: the state a run starts from where none is given meets the invariant; its register
values are the model's (log entries 1 and 2). -/
def Obligations.ResetMeetsTheInvariant : Prop :=
  Inv State.reset ∧ (∀ r, State.reset.readZmm r = 0) ∧ (∀ a, State.reset.readMask a = 0) ∧
  (∀ g, g ≠ 2#4 → State.reset.readGpr g = 0) ∧ ∀ a, State.reset.mem.readByte a = 0

/-- R12, R26, R42: along any run memory, the opmask registers, the general registers and the launch
parameters are constant. -/
def Obligations.RunsChangeOnlyVectorRegistersAndRip : Prop :=
  ∀ (n : Nat) (s t : State), Sys2Proof.core.run n s = .next t →
    t.mem = s.mem ∧ t.k = s.k ∧ t.gpr = s.gpr ∧ t.cfg = s.cfg

/-- R104, R163, R71: every run that has not passed CODE_END ends, and within one step for every five
bytes of code left, and one more. -/
def Obligations.EveryRunEnds : Prop :=
  ∀ s t : State, s.rip.toNat ≤ s.cfg.codeEnd.toNat →
    Sys2Proof.core.run ((s.cfg.codeEnd.toNat - s.rip.toNat) / 5 + 1) s ≠ .next t

/-- An instruction placed by `withFetchWord` is the one the next step executes, where the machine may
execute there (the model's placing operation, log entry 11). -/
def Obligations.PlacedTableWordIsExecuted : Prop :=
  ∀ (s : State) (nbits w : Nat) (i : Instr), s.mem.wf = true → nbits ≤ 120 →
    decodeTableWord nbits w = some i → s.cfg.mode64 = true → s.rip ≠ s.cfg.codeEnd →
    s.rip.toNat + 26 ≤ 2 ^ 64 → s.placement i.length = none →
    fetchRun s.cfg i.length s.rip = none →
    step (s.withFetchWord nbits w) = exec i (s.withFetchWord nbits w)
end

