-- ==== Sys2Proof/Laws/Decode.lean ====
section
/-!
SUPPORT. The laws of the decoder's parts: legacy prefixes (R51), displacements (R58) and bit fields.
-/

namespace Sys2Proof

/-- A legacy prefix's byte is read back as the prefix (R51). -/
@[simp] theorem LegacyPrefix.ofByte_toByte (p : LegacyPrefix) :
    LegacyPrefix.ofByte p.toByte = some p := by
  cases p with
  | rex w => revert w; decide
  | _ => decide

/-- A byte read as a legacy prefix is that prefix's byte (R51). -/
theorem LegacyPrefix.toByte_of_ofByte {c : Byte} {p : LegacyPrefix}
    (h : LegacyPrefix.ofByte c = some p) : p.toByte = c := by
  have key : ∀ c : Byte, ((LegacyPrefix.ofByte c).all fun p => p.toByte = c) = true := by
    decide +kernel
  simpa [h] using key c

/-- Legacy prefixes before a byte that is none are split off whole (R69 step 1). -/
theorem splitLegacy_append (ps : List LegacyPrefix) (c : Byte) (rest : List Byte)
    (h : LegacyPrefix.ofByte c = none) :
    splitLegacy (ps.map LegacyPrefix.toByte ++ c :: rest) = (ps, c :: rest) := by
  induction ps with
  | nil => simp [splitLegacy, h]
  | cons p ps ih => simp [splitLegacy, ih]

/-- The bytes split off are those of the prefixes (R69 step 1). -/
theorem splitLegacy_eq (bytes : List Byte) :
    bytes = (splitLegacy bytes).1.map LegacyPrefix.toByte ++ (splitLegacy bytes).2 := by
  induction bytes with
  | nil => rfl
  | cons c cs ih =>
    cases h : LegacyPrefix.ofByte c with
    | none => simp [splitLegacy, h]
    | some p => simp [splitLegacy, h, LegacyPrefix.toByte_of_ofByte h, ← ih]

/-- Decoding behind legacy prefixes (R69). -/
theorem decode_append (ps : List LegacyPrefix) (c : Byte) (rest : List Byte)
    (h : LegacyPrefix.ofByte c = none) :
    decode (ps.map LegacyPrefix.toByte ++ c :: rest) = decodeBody ps (c :: rest) := by
  simp [decode, splitLegacy_append ps c rest h]

/-- A 32-bit displacement is read back from its bytes (R58). -/
@[simp] theorem takeDisp32_bytes (d : BitVec 32) (rest : List Byte) :
    takeDisp32 (disp32Bytes d ++ rest) = some (d, rest) := by
  have : d.extractLsb' 24 8 ++ d.extractLsb' 16 8 ++ d.extractLsb' 8 8 ++ d.extractLsb' 0 8 = d := by
    apply BitVec.eq_of_getLsbD_eq
    intro i hi
    simp only [BitVec.getLsbD_append, BitVec.getLsbD_extractLsb']
    have key : ∀ k, k ≤ i → i < k + 8 → (decide (i - k < 8) && d.getLsbD (k + (i - k))) = d.getLsbD i := by
      intro k h1 h2
      simp [show i - k < 8 by omega, show k + (i - k) = i by omega]
    split
    · exact key 0 (by omega) (by omega)
    · split
      · exact key 8 (by omega) (by omega)
      · split
        · simpa [Nat.sub_sub] using key 16 (by omega) (by omega)
        · simpa [Nat.sub_sub] using key 24 (by omega) (by omega)
  simp [takeDisp32, disp32Bytes, this]

/-- A displacement is read back from its `mod` and bytes (R58). -/
@[simp] theorem takeDisp_bytes (d : Disp) (rest : List Byte) :
    takeDisp d.mod (d.bytes ++ rest) = some (d, rest) := by
  cases d <;> simp [takeDisp, Disp.mod, Disp.bytes]

/-- `mod` of a form with a base register is never 11b (R56, R58). -/
@[simp] theorem Disp.mod_ne_three (d : Disp) : d.mod ≠ 3#2 := by
  cases d <;> simp [Disp.mod]

/-- `mod = 00b` says no displacement (R58). -/
@[simp] theorem Disp.mod_eq_zero (d : Disp) : d.mod = 0#2 ↔ d = .none := by
  cases d <;> simp [Disp.mod]

@[simp] theorem length_disp32Bytes (d : BitVec 32) : (disp32Bytes d).length = 4 := rfl

@[simp] theorem Disp.length_bytes (d : Disp) : d.bytes.length = d.length := by
  cases d <;> simp [Disp.bytes, Disp.length]

/-- ModRM and the bytes after it are as many as the operand's length (R71). -/
@[simp] theorem RegMem.length_bytes {w : Nat} (reg3 : BitVec 3) (o : RegMem w) :
    (o.bytes reg3).length = o.length + 1 := by
  cases o with
  | reg r => rfl
  | mem m =>
    cases m <;> simp [RegMem.bytes, RegMem.length, MemOperand.parts, MemOperand.length, Nat.add_comm]

theorem length_encodeVex (l : BitVec 1) (e : VexFields) : (encodeVex l e).length = e.length := by
  simp [encodeVex, VexFields.length]
  omega

theorem length_encodeEvex (w : BitVec 1) (ll : BitVec 2) (op : Byte) (e : EvexFields) :
    (encodeEvex w ll op e).length = e.length := by
  simp [encodeEvex, EvexFields.length]
  omega

end Sys2Proof
end

