-- ==== Sys2Proof/Laws/State.lean ====
section
/-!
SUPPORT. One lemma per field per update of the state, and per read of a register after one, so that no
proof unfolds a record update.
-/

namespace Sys2Proof.Machine

variable (s : State) (r : BitVec 5) (v : BitVec 512) (a : Word64)

@[simp] theorem State.writeZmm_k : (s.writeZmm r v).k = s.k := rfl
@[simp] theorem State.writeZmm_gpr : (s.writeZmm r v).gpr = s.gpr := rfl
@[simp] theorem State.writeZmm_rip : (s.writeZmm r v).rip = s.rip := rfl
@[simp] theorem State.writeZmm_mem : (s.writeZmm r v).mem = s.mem := rfl
@[simp] theorem State.writeZmm_cfg : (s.writeZmm r v).cfg = s.cfg := rfl
@[simp] theorem State.writeZmm_draw : (s.writeZmm r v).draw = s.draw := rfl
@[simp] theorem State.writeRip_zmm : (s.writeRip a).zmm = s.zmm := rfl
@[simp] theorem State.writeRip_k : (s.writeRip a).k = s.k := rfl
@[simp] theorem State.writeRip_gpr : (s.writeRip a).gpr = s.gpr := rfl
@[simp] theorem State.writeRip_rip : (s.writeRip a).rip = a := rfl
@[simp] theorem State.writeRip_mem : (s.writeRip a).mem = s.mem := rfl
@[simp] theorem State.writeRip_cfg : (s.writeRip a).cfg = s.cfg := rfl
@[simp] theorem State.writeRip_draw : (s.writeRip a).draw = s.draw := rfl

@[simp] theorem State.readZmm_writeRip : (s.writeRip a).readZmm r = s.readZmm r := rfl
@[simp] theorem State.readMask_writeRip (b : BitVec 3) : (s.writeRip a).readMask b = s.readMask b := rfl
@[simp] theorem State.readGpr_writeRip (g : BitVec 4) : (s.writeRip a).readGpr g = s.readGpr g := rfl
@[simp] theorem State.readMask_writeZmm (b : BitVec 3) : (s.writeZmm r v).readMask b = s.readMask b := rfl
@[simp] theorem State.readGpr_writeZmm (g : BitVec 4) : (s.writeZmm r v).readGpr g = s.readGpr g := rfl

/-- A vector register reads as the MAXVL bits written to it (R13). -/
@[simp] theorem State.readZmm_writeZmm_self : (s.writeZmm r v).readZmm r = clipZmm s.cfg v := by
  simp [State.readZmm, State.writeZmm]

/-- Bit `b` of a value of MAXVL bits. -/
theorem getLsbD_clipZmm (cfg : Launch) (b : Nat) :
    (clipZmm cfg v).getLsbD b = (decide (b < cfg.maxVl.bits) && v.getLsbD b) := by
  have : cfg.maxVl.bits ≤ 512 := by cases cfg.maxVl <;> decide
  simp only [clipZmm, BitVec.getLsbD_setWidth]
  by_cases h : b < cfg.maxVl.bits
  · simp [h, show b < 512 by omega]
  · simp [h]

/-- A value that fits MAXVL bits is written whole (R96). -/
theorem clipZmm_setWidth {vl : Nat} (cfg : Launch) (x : BitVec vl) (h : vl ≤ cfg.maxVl.bits) :
    clipZmm cfg (x.setWidth 512) = x.setWidth 512 := by
  apply BitVec.eq_of_getLsbD_eq
  intro b hb
  rw [getLsbD_clipZmm]
  by_cases hb' : b < cfg.maxVl.bits
  · simp [hb']
  · have : vl ≤ b := by omega
    simp [hb', BitVec.getLsbD_of_ge x b this]

/-- With MAXVL = 512 every value is written whole. -/
theorem clipZmm_of_512 {cfg : Launch} (h : 512 ≤ cfg.maxVl.bits) : clipZmm cfg v = v := by
  simpa using clipZmm_setWidth cfg v h

/-- Writing one vector register leaves the others (R13, R26). -/
theorem State.readZmm_writeZmm_of_ne {r' : BitVec 5} (h : r' ≠ r) :
    (s.writeZmm r v).readZmm r' = s.readZmm r' := by
  have h' : r.toNat ≠ r'.toNat := fun e => h (BitVec.eq_of_toNat_eq e.symm)
  simp [State.readZmm, State.writeZmm, Vector.getElem_set_ne, h']

section Placement

variable (nbits w : Nat)

@[simp] theorem State.withFetchWord_zmm : (s.withFetchWord nbits w).zmm = s.zmm := rfl
@[simp] theorem State.withFetchWord_k : (s.withFetchWord nbits w).k = s.k := rfl
@[simp] theorem State.withFetchWord_gpr : (s.withFetchWord nbits w).gpr = s.gpr := rfl
@[simp] theorem State.withFetchWord_rip : (s.withFetchWord nbits w).rip = s.rip := rfl
@[simp] theorem State.withFetchWord_cfg : (s.withFetchWord nbits w).cfg = s.cfg := rfl
@[simp] theorem State.withFetchWord_draw : (s.withFetchWord nbits w).draw = s.draw := rfl

end Placement

end Sys2Proof.Machine
end

