-- ==== Sys2Proof/Laws/Ops.lean ====
section
/-!
SUPPORT. What each shared operation of a step can do, said once: the reported fault (R139), the line-2
faults, the shared step of the six instructions (R90), and that of the illegal rows.
-/

namespace Sys2Proof.Machine

/-- No fault is reported exactly where none applies. -/
@[simp] theorem State.report_eq_none (s : State) (fs : List Fault) : s.report fs = none ↔ fs = [] := by
  match fs with
  | [] => simp [State.report]
  | [_] => simp [State.report]
  | _ :: _ :: _ => simp [State.report]

/-- A single applicable fault is the one reported. -/
@[simp] theorem State.report_singleton (s : State) (f : Fault) : s.report [f] = some f := rfl

/-- The reported fault is one of those that apply. -/
theorem State.mem_of_report {s : State} {fs : List Fault} {f : Fault} (h : s.report fs = some f) :
    f ∈ fs := by
  match fs with
  | [] => simp [State.report] at h
  | [g] => simp_all [State.report]
  | g :: g' :: rest =>
    simp only [State.report, Option.some.injEq] at h
    have hlt : Config.freePick s.draw s.rip % (g :: g' :: rest).length < (g :: g' :: rest).length :=
      Nat.mod_lt _ (by simp)
    rw [List.getD_eq_getElem _ _ hlt] at h
    exact h ▸ List.getElem_mem hlt

/-- Where a fault applies, one is reported. -/
theorem State.exists_report {s : State} {fs : List Fault} (h : fs ≠ []) :
    ∃ f, s.report fs = some f := by
  cases hr : s.report fs with
  | none => exact absurd ((State.report_eq_none s fs).1 hr) h
  | some f => exact ⟨f, rfl⟩

@[simp] theorem decodeFaults_eq_nil (ud : Bool) (len : Nat) :
    decodeFaults ud len = [] ↔ ud = false ∧ len ≤ 15 := by
  cases ud <;> by_cases h : 15 < len <;> simp [decodeFaults, h]
  omega

theorem mem_decodeFaults {ud : Bool} {len : Nat} {f : Fault} :
    f ∈ decodeFaults ud len ↔
      (f = .invalidOpcode ∧ ud = true) ∨ (f = .generalProtection ∧ 15 < len) := by
  cases ud <;> by_cases h : 15 < len <;> simp [decodeFaults, h]

/-- What it takes for the machine to have what a form names (R5). -/
theorem Permute.present_iff {cfg : Launch} {p : Permute} :
    p.present cfg = true ↔
      p.form.vl ≤ cfg.maxVl.bits ∧ p.dest.toNat < cfg.nvec.val ∧ p.src1.toNat < cfg.nvec.val ∧
        (∀ r, p.src2 = .reg r → r.toNat < cfg.nvec.val) ∧
        (p.aaa = 0#3 ∨ (p.aaa.toNat < cfg.nk.val ∧ p.form.kl ≤ cfg.kw.val)) := by
  cases h : p.src2 <;> simp [Permute.present, srcRegs, h] <;> tauto

/-- Everything the shared step can do: complete, one of R139's lines 2 to 4, or, where none of these
applies, be refused for state the machine does not have. -/
theorem Permute.run_cases (p : Permute) (scale : Nat) (s : State) :
    (∃ f, s.report (decodeFaults p.ud p.len) = some f ∧ p.run scale s = .fault f) ∨
    (p.ud = false ∧ p.len ≤ 15 ∧ s.cfg.ts = true ∧ p.run scale s = .fault .deviceNotAvailable) ∨
    (p.ud = false ∧ p.len ≤ 15 ∧ s.cfg.ts = false ∧
      ∃ f, s.report (p.operandFaults scale s) = some f ∧ p.run scale s = .fault f) ∨
    (p.ud = false ∧ p.len ≤ 15 ∧ s.cfg.ts = false ∧ p.operandFaults scale s = [] ∧
      p.present s.cfg = false ∧ p.run scale s = .refused .absentState) ∨
    (p.ud = false ∧ p.len ≤ 15 ∧ s.cfg.ts = false ∧ p.operandFaults scale s = [] ∧
      p.present s.cfg = true ∧ p.run scale s = .next (p.complete scale s)) := by
  cases h2 : s.report (decodeFaults p.ud p.len) with
  | some f => exact .inl ⟨f, rfl, by simp [Permute.run, h2, raise]⟩
  | none =>
    obtain ⟨hu, hl⟩ := (decodeFaults_eq_nil _ _).1 ((State.report_eq_none _ _).1 h2)
    cases hts : s.cfg.ts with
    | true => exact .inr (.inl ⟨hu, hl, rfl, by simp [Permute.run, h2, hts, raise]⟩)
    | false =>
      cases h4 : s.report (p.operandFaults scale s) with
      | some f =>
        exact .inr (.inr (.inl ⟨hu, hl, rfl, f, rfl, by simp [Permute.run, h2, hts, h4, raise]⟩))
      | none =>
        have h0 := (State.report_eq_none _ _).1 h4
        cases hp : p.present s.cfg with
        | false =>
          exact .inr (.inr (.inr (.inl ⟨hu, hl, rfl, h0, rfl, by simp [Permute.run, h2, hts, h4, hp]⟩)))
        | true =>
          exact .inr (.inr (.inr (.inr ⟨hu, hl, rfl, h0, rfl, by simp [Permute.run, h2, hts, h4, hp]⟩)))

/-- The shared step completes exactly where no fault applies and the machine has what the form names. -/
theorem Permute.run_eq_next {p : Permute} {scale : Nat} {s t : State} :
    p.run scale s = .next t ↔
      p.ud = false ∧ p.len ≤ 15 ∧ s.cfg.ts = false ∧ p.operandFaults scale s = [] ∧
        p.present s.cfg = true ∧ t = p.complete scale s := by
  obtain ⟨f, hf, h⟩ | ⟨hu, hl, ht, h⟩ | ⟨hu, hl, ht, f, hf, h⟩ | ⟨hu, hl, ht, hf, hp, h⟩ |
    ⟨hu, hl, ht, hf, hp, h⟩ := p.run_cases scale s
  · have : ¬ (p.ud = false ∧ p.len ≤ 15) := by
      intro hc
      rw [(decodeFaults_eq_nil _ _).2 hc] at hf
      cases hf
    rw [h]
    constructor
    · intro e; cases e
    · rintro ⟨a, b, -⟩; exact absurd ⟨a, b⟩ this
  · simp [h, ht]
  · have : p.operandFaults scale s ≠ [] := by
      intro e; rw [e] at hf; cases hf
    simp [h, this]
  · simp [h, hp]
  · simp [h, hu, hl, ht, hf, hp, eq_comm]

/-- An illegal row raises #UD, or the length limit's #GP(0) where it is too long. -/
theorem runIllegal_cases (len : Nat) (s : State) :
    runIllegal len s = .fault .invalidOpcode ∨
      (15 < len ∧ runIllegal len s = .fault .generalProtection) := by
  cases h : s.report (decodeFaults true len) with
  | none => simp at h
  | some f =>
    have hr : runIllegal len s = .fault f := by simp [runIllegal, h, raise]
    obtain ⟨rfl, -⟩ | ⟨rfl, hl⟩ := mem_decodeFaults.1 (State.mem_of_report h)
    · exact .inl hr
    · exact .inr ⟨hl, hr⟩

end Sys2Proof.Machine
end

