-- ==== Sys2Proof/Laws/Permute.lean ====
section
/-!
SUPPORT. The laws of vectors as elements (R6): what an element of a packed vector is, that vectors are
determined by their elements, and an element of a truncated or extended register.
-/

namespace Sys2Proof.Machine

/-- A bit of a packed vector is a bit of the element it lies in. -/
theorem getLsbD_pack (w n : Nat) (f : Nat → BitVec w) (b : Nat) :
    (pack w n f).getLsbD b = (decide (b < w * n) && (f (b / w)).getLsbD (b % w)) := by
  induction n with
  | zero => simp [pack]
  | succ n ih =>
    have hs : w * (n + 1) = w * n + w := Nat.mul_succ w n
    simp only [pack, BitVec.getLsbD_cast, BitVec.getLsbD_append, ih]
    by_cases h : b < w * n
    · simp [h, show b < w * (n + 1) by omega]
    · have h' : ¬ b < w * n := h
      simp only [h', if_false]
      by_cases h2 : b < w * (n + 1)
      · have hd : b / w = n := Nat.div_eq_of_lt_le (by rw [Nat.mul_comm]; omega)
          (by rw [Nat.mul_comm, Nat.mul_succ]; omega)
        have hm : b % w = b - w * n := by
          have := Nat.div_add_mod b w
          rw [hd] at this
          omega
        simp [h2, hd, hm]
      · have : w ≤ b - w * n := by omega
        simp [h2, BitVec.getLsbD_of_ge _ _ this]

/-- Bit `i` of element `j`. -/
theorem getLsbD_elem {vl : Nat} (v : BitVec vl) (w j i : Nat) :
    (elem v w j).getLsbD i = (decide (i < w) && v.getLsbD (w * j + i)) := by
  simp [elem]

/-- Element `j` of a packed vector (R6). -/
@[simp] theorem elem_pack (w n : Nat) (f : Nat → BitVec w) {j : Nat} (h : j < n) :
    elem (pack w n f) w j = f j := by
  apply BitVec.eq_of_getLsbD_eq
  intro i hi
  have h1 : w * j + i < w * n := by
    have := Nat.mul_le_mul_left w (Nat.succ_le_of_lt h)
    rw [Nat.mul_succ] at this
    omega
  have h2 : (w * j + i) / w = j := by
    rw [Nat.mul_add_div (by omega), Nat.div_eq_of_lt hi, Nat.add_zero]
  have h3 : (w * j + i) % w = i := by
    rw [Nat.mul_add_mod, Nat.mod_eq_of_lt hi]
  rw [getLsbD_elem, getLsbD_pack, h2, h3]
  simp [hi, h1]

/-- Vectors with the same elements are equal. -/
theorem eq_of_elem_eq {w n : Nat} {v v' : BitVec (w * n)}
    (h : ∀ j, j < n → elem v w j = elem v' w j) : v = v' := by
  apply BitVec.eq_of_getLsbD_eq
  intro b hb
  have hw : 0 < w := by
    rcases Nat.eq_zero_or_pos w with h0 | h0
    · simp [h0] at hb
    · exact h0
  have hj : b / w < n := (Nat.div_lt_iff_lt_mul hw).2 (by rwa [Nat.mul_comm])
  have := congrArg (fun x => x.getLsbD (b % w)) (h _ hj)
  simp only [getLsbD_elem, Nat.mod_lt _ hw, decide_true, Bool.true_and, Nat.div_add_mod] at this
  exact this

/-- A packed vector's elements give it back. -/
@[simp] theorem pack_elem (w n : Nat) (v : BitVec (w * n)) : pack w n (elem v w) = v :=
  eq_of_elem_eq fun _ hj => elem_pack w n _ hj

/-- An element below the truncation is the register's. -/
theorem elem_setWidth {vl vl' : Nat} (v : BitVec vl) (w : Nat) {j : Nat} (h : w * j + w ≤ vl') :
    elem (v.setWidth vl') w j = elem v w j := by
  apply BitVec.eq_of_getLsbD_eq
  intro i hi
  rw [getLsbD_elem, getLsbD_elem, BitVec.getLsbD_setWidth]
  simp [show w * j + i < vl' by omega]

/-- An index below the truncation is the register's. -/
theorem extractLsb'_setWidth_of_le {vl vl' : Nat} (v : BitVec vl) {start len : Nat}
    (h : start + len ≤ vl') : (v.setWidth vl').extractLsb' start len = v.extractLsb' start len := by
  apply BitVec.eq_of_getLsbD_eq
  intro i hi
  simp [hi, show start + i < vl' by omega]

/-- Element `j` of a form's result (R95). -/
theorem Form.elem_result (f : Form) (s1 s2 d0 : BitVec f.vl) (sel : Nat → Bool) (z : Bool) {j : Nat}
    (h : j < f.kl) :
    elem (f.result s1 s2 d0 sel z) f.w j =
      if sel j then elem s2 f.w (f.index s1 j) else if z then 0#f.w else elem d0 f.w j :=
  elem_pack f.w f.kl _ h

/-! ### The state after a completed step (R91, R96, R97) -/

variable (p : Permute) (scale : Nat) (s : State)

@[simp] theorem Permute.complete_k : (p.complete scale s).k = s.k := rfl
@[simp] theorem Permute.complete_gpr : (p.complete scale s).gpr = s.gpr := rfl
@[simp] theorem Permute.complete_mem : (p.complete scale s).mem = s.mem := rfl
@[simp] theorem Permute.complete_cfg : (p.complete scale s).cfg = s.cfg := rfl
@[simp] theorem Permute.complete_draw : (p.complete scale s).draw = s.draw := rfl
@[simp] theorem Permute.complete_rip : (p.complete scale s).rip = p.next s := rfl

/-- The destination of a completed step (R96). -/
theorem Permute.complete_dest (h : p.form.vl ≤ s.cfg.maxVl.bits) :
    (p.complete scale s).readZmm p.dest =
    (p.form.result ((s.readZmm p.src1).setWidth p.form.vl) (p.data scale s)
      ((s.readZmm p.dest).setWidth p.form.vl) (s.selected p.aaa) p.z).setWidth 512 := by
  simp [Permute.complete, clipZmm_setWidth s.cfg _ h]

/-- Every other vector register of a completed step (R26). -/
theorem Permute.complete_other {r : BitVec 5} (h : r ≠ p.dest) :
    (p.complete scale s).readZmm r = s.readZmm r := by
  simp [Permute.complete, State.readZmm_writeZmm_of_ne _ _ _ h]

end Sys2Proof.Machine
end

