-- ==== Sys2Proof/Laws/Exec.lean ====
section
/-!
SUPPORT. What `exec` can do, said once for all instructions: each is the shared step of one form or the
step of an illegal row (R90, R131), with the fields `Sys2Proof.Safety` names.
-/

namespace Sys2Proof.Machine

open Sys2Proof.Safety

/-- A read has no fault exactly where it is admitted (R34, R36, R37). -/
theorem State.readFaults_eq_nil (s : State) (legacy : List LegacyPrefix) (m : MemOperand)
    (ea : Word64) (n : Nat) (checked : Bool) :
    s.readFaults legacy m ea n checked = [] ↔ readOk s ea n checked = true := by
  unfold State.readFaults readOk
  generalize (checked && s.cfg.alignCheck && ea.toNat % 4 != 0) = misaligned
  cases allCanonical s.cfg.la57 n ea <;> cases memOK s.cfg ea n <;> cases misaligned <;> simp

/-- The operand has no fault exactly where it is a register or a read that is admitted (R137). -/
theorem Permute.operandFaults_eq_nil (p : Permute) (scale : Nat) (s : State) :
    p.operandFaults scale s = [] ↔
      operandOk s p.legacy scale p.len p.bytes p.bcast p.src2 = true := by
  unfold Permute.operandFaults operandOk
  cases p.src2 <;> simp [State.readFaults_eq_nil, Permute.next]

/-- R5's sizes give at least sixteen vector registers. -/
theorem le_nvec_of_sizesSuffice {cfg : Launch} (h : sizesSuffice cfg = true) : 16 ≤ cfg.nvec.val := by
  unfold sizesSuffice at h
  split at h
  · simp only [Bool.and_eq_true, decide_eq_true_eq] at h
    rw [h.1.1.2]
    decide
  · simpa using h

/-- On a machine of R5's sizes a VEX form of at most 256 bits has all it names (decisions D2, D3). -/
theorem present_ofVex {cfg : Launch} {f : Form} {ud : Bool} {e : VexFields} (h : sizesSuffice cfg = true)
    (hvl : f.vl ≤ 256) : (ofVex f ud e).present cfg = true := by
  have hreg : ∀ r : BitVec 4, (r.setWidth 5).toNat < cfg.nvec.val := fun r => by
    have := le_nvec_of_sizesSuffice h
    have := r.isLt
    simp only [BitVec.toNat_setWidth]
    omega
  refine Permute.present_iff.2 ⟨?_, hreg _, hreg _, fun r hr => ?_, .inl rfl⟩
  · have : 256 ≤ cfg.maxVl.bits := by cases cfg.maxVl <;> decide
    exact Nat.le_trans hvl this
  · cases hs : e.src2 <;> simp only [ofVex, hs, widen, RegMem.reg.injEq, reduceCtorEq] at hr
    exact hr ▸ hreg _

/-- On a machine of R5's sizes with an AVX512 flag an EVEX form has all it names: of at most 16 elements,
or of at most 64 with AVX512BW (decisions D2 to D4). -/
theorem present_ofEvex {cfg : Launch} {f : Form} {ud : Bool} {e : EvexFields}
    (h : sizesSuffice cfg = true)
    (hflag : cfg.hasAvx512f = true ∨ cfg.hasAvx512vl = true ∨ cfg.hasAvx512bw = true)
    (hvl : f.vl ≤ 512) (hkl : f.kl ≤ 16 ∨ (cfg.hasAvx512bw = true ∧ f.kl ≤ 64)) :
    (ofEvex f ud e).present cfg = true := by
  have hany : (cfg.hasAvx512f || cfg.hasAvx512vl || cfg.hasAvx512bw) = true := by
    rcases hflag with h' | h' | h' <;> simp [h']
  simp only [sizesSuffice, hany, if_true, Bool.and_eq_true, Bool.or_eq_true, decide_eq_true_eq,
    Bool.not_eq_true'] at h
  obtain ⟨⟨⟨hm, hn⟩, hk⟩, hw⟩ := h
  have hreg : ∀ r : BitVec 5, r.toNat < cfg.nvec.val := fun r => hn ▸ r.isLt
  refine Permute.present_iff.2 ⟨hm ▸ hvl, hreg _, hreg _, fun r _ => hreg r, .inr ⟨hk ▸ e.aaa.isLt, ?_⟩⟩
  show f.kl ≤ cfg.kw.val
  rcases hw with hw | ⟨hbw, hw⟩
  · rw [hw]
    exact hkl.elim (fun h' => Nat.le_trans h' (by decide)) fun h' => h'.2
  · rcases hkl with h' | ⟨h', -⟩
    · omega
    · simp [hbw] at h'

/-- Every instruction is the shared step of one form, with its own fields, or an illegal row (R78). -/
theorem exec_shape (i : Instr) (s : State) :
    (∃ (p : Permute) (scale : Nat), exec i s = p.run scale s ∧ p.dest = destOf i ∧ p.len = i.length ∧
      p.form.vl = vlOf i ∧ p.form.kl = klOf i ∧ p.ud = raisesUD s.cfg i ∧ p.legacy = legacyOf i) ∨
    (exec i s = runIllegal i.length s ∧ raisesUD s.cfg i = true ∧ operandRead s i = none) := by
  cases i
  case udVpermdVexL0 => exact .inr ⟨rfl, rfl, rfl⟩
  case udVpermdEvexLL00 => exact .inr ⟨rfl, rfl, rfl⟩
  case udVpermdEvexLL11 => exact .inr ⟨rfl, rfl, rfl⟩
  case udVpermwEvexLL11 => exact .inr ⟨rfl, rfl, rfl⟩
  all_goals exact .inl ⟨_, _, rfl, rfl, rfl, rfl, rfl, rfl, rfl⟩

/-- An instruction that completes is a form with no #UD condition, at most 15 bytes, TS clear, an
admitted operand and all it names present, and the next state is the form's (R90). -/
theorem exec_eq_next {i : Instr} {s t : State} (h : exec i s = .next t) :
    ∃ (p : Permute) (scale : Nat), p.dest = destOf i ∧ p.len = i.length ∧
      p.form.vl = vlOf i ∧ p.form.kl = klOf i ∧
      raisesUD s.cfg i = false ∧ i.length ≤ 15 ∧ s.cfg.ts = false ∧
      p.operandFaults scale s = [] ∧ p.present s.cfg = true ∧ t = p.complete scale s := by
  obtain ⟨p, scale, hr, hd, hl, hv, hk, hu, -⟩ | ⟨hr, -⟩ := exec_shape i s
  · rw [hr, Permute.run_eq_next, hu, hl] at h
    exact ⟨p, scale, hd, hl, hv, hk, h⟩
  · obtain h' | ⟨-, h'⟩ := runIllegal_cases i.length s <;> rw [hr, h'] at h <;> cases h

/-- A #UD condition on an instruction of at most 15 bytes is #UD (R136, R139). -/
theorem exec_of_raisesUD {i : Instr} {s : State} (hu : raisesUD s.cfg i = true)
    (hl : i.length ≤ 15) : exec i s = .fault .invalidOpcode := by
  obtain ⟨p, scale, hr, -, hlen, -, -, hud, -⟩ | ⟨hr, -⟩ := exec_shape i s
  · have hf : s.report (decodeFaults p.ud p.len) = some .invalidOpcode := by
      have : ¬ 15 < i.length := by omega
      simp [decodeFaults, hud, hu, hlen, this]
    simp [hr, Permute.run, hf, raise]
  · obtain h | ⟨h, -⟩ := runIllegal_cases i.length s
    · rw [hr, h]
    · omega

end Sys2Proof.Machine
end

