-- ==== Sys2Proof/Laws/Memory.lean ====
section
/-!
SUPPORT. The laws of memory: a read after a write (R30), and that every memory operation keeps the
canonical form.
-/

namespace Sys2Proof.Machine

theorem Memory.wfFrom_mono {m : Memory} {lo lo' : Nat} (h : m.wfFrom lo = true) (hl : lo' ≤ lo) :
    m.wfFrom lo' = true := by
  cases m with
  | nil => rfl
  | cons c rest =>
    obtain ⟨b, v⟩ := c
    simp only [Memory.wfFrom, Bool.and_eq_true, decide_eq_true_eq] at h ⊢
    exact ⟨⟨⟨hl.trans h.1.1.1, h.1.1.2⟩, h.1.2⟩, h.2⟩

/-- A byte below every listed address reads as zero. -/
theorem Memory.readByte_of_lt {m : Memory} {lo a : Nat} (h : m.wfFrom lo = true) (ha : a < lo) :
    m.readByte a = 0#8 := by
  induction m generalizing lo with
  | nil => rfl
  | cons c rest ih =>
    obtain ⟨b, v⟩ := c
    simp only [Memory.wfFrom, Bool.and_eq_true, decide_eq_true_eq] at h
    have hb : b ≠ a := by omega
    simp only [Memory.readByte, hb, if_false]
    exact ih h.2 (by omega)

theorem Memory.wfFrom_writeByte {m : Memory} {lo a : Nat} (v : Byte) (h : m.wfFrom lo = true)
    (hlo : lo ≤ a) (ha : a < addressSpace) : (m.writeByte a v).wfFrom lo = true := by
  induction m generalizing lo with
  | nil => by_cases hv : v = 0#8 <;> simp [Memory.writeByte, Memory.wfFrom, hv, hlo, ha]
  | cons c rest ih =>
    obtain ⟨b, u⟩ := c
    have hc := h
    simp only [Memory.wfFrom, Bool.and_eq_true, decide_eq_true_eq] at h
    obtain ⟨⟨⟨h1, h2⟩, h3⟩, h4⟩ := h
    by_cases hab : a < b
    · by_cases hv : v = 0#8
      · simpa [Memory.writeByte, hab, hv] using hc
      · have : a + 1 ≤ b := hab
        simp only [Memory.writeByte, hab, if_true, hv, if_false, Memory.wfFrom, Bool.and_eq_true,
          decide_eq_true_eq]
        exact ⟨⟨⟨hlo, ha⟩, by simpa using hv⟩, ⟨⟨⟨this, h2⟩, h3⟩, h4⟩⟩
    · by_cases he : a = b
      · subst he
        by_cases hv : v = 0#8
        · simpa [Memory.writeByte, hv] using Memory.wfFrom_mono h4 (by omega)
        · simp only [Memory.writeByte, lt_irrefl, if_false, if_true, hv, Memory.wfFrom,
            Bool.and_eq_true, decide_eq_true_eq]
          exact ⟨⟨⟨h1, h2⟩, by simpa using hv⟩, h4⟩
      · simp only [Memory.writeByte, hab, if_false, he, Memory.wfFrom, Bool.and_eq_true,
          decide_eq_true_eq]
        exact ⟨⟨⟨h1, h2⟩, h3⟩, ih h4 (by omega)⟩

/-- Writing a byte keeps the canonical form. -/
theorem Memory.wf_writeByte {m : Memory} {a : Nat} (v : Byte) (h : m.wf = true)
    (ha : a < addressSpace) : (m.writeByte a v).wf = true :=
  Memory.wfFrom_writeByte v h (Nat.zero_le a) ha

/-- Storing bytes keeps the canonical form. -/
theorem Memory.wf_writeBytes {m : Memory} (a : Word64) (vs : List Byte) (h : m.wf = true) :
    (m.writeBytes a vs).wf = true := by
  induction vs generalizing m a with
  | nil => exact h
  | cons v vs ih => exact ih _ (Memory.wf_writeByte v h a.isLt)

/-- Placing a table word keeps the canonical form. -/
theorem State.wf_withFetchWord (s : State) (nbits w : Nat) (h : s.mem.wf = true) :
    (s.withFetchWord nbits w).mem.wf = true :=
  Memory.wf_writeBytes _ _ h

/-- The memory of the launch state is canonical. -/
theorem State.reset_mem_wf : State.reset.mem.wf = true := rfl

theorem Memory.readByte_writeByte_aux {m : Memory} {lo a : Nat} (v : Byte) (a' : Nat)
    (h : m.wfFrom lo = true) : (m.writeByte a v).readByte a' = if a = a' then v else m.readByte a' := by
  induction m generalizing lo with
  | nil =>
    by_cases hv : v = 0#8 <;> by_cases ha : a = a' <;> simp [Memory.writeByte, Memory.readByte, hv, ha]
  | cons c rest ih =>
    obtain ⟨b, u⟩ := c
    simp only [Memory.wfFrom, Bool.and_eq_true, decide_eq_true_eq] at h
    have hz : ∀ x, x ≤ b → Memory.readByte rest x = 0#8 := fun x hx =>
      Memory.readByte_of_lt (lo := b + 1) h.2 (by omega)
    by_cases hab : a < b
    · have hne : b ≠ a := by omega
      by_cases hv : v = 0#8
      · by_cases ha : a = a'
        · subst ha
          simp [Memory.writeByte, Memory.readByte, hab, hv, hne, hz a hab.le]
        · simp [Memory.writeByte, Memory.readByte, hab, hv, ha]
      · simp [Memory.writeByte, Memory.readByte, hab, hv]
    · by_cases he : a = b
      · subst he
        by_cases hv : v = 0#8
        · by_cases ha : a = a'
          · subst ha
            simp [Memory.writeByte, hv, hz a le_rfl]
          · simp [Memory.writeByte, Memory.readByte, hv, ha]
        · by_cases ha : a = a' <;> simp [Memory.writeByte, Memory.readByte, hv, ha]
      · simp only [Memory.writeByte, hab, if_false, he, Memory.readByte]
        by_cases hb : b = a'
        · have : a ≠ a' := by omega
          simp [hb, this]
        · simp [hb, ih h.2]

/-- A read after a write gives the value written, and every other address reads as before (R30). -/
theorem Memory.readByte_writeByte {m : Memory} (a : Nat) (v : Byte) (a' : Nat) (h : m.wf = true) :
    (m.writeByte a v).readByte a' = if a = a' then v else m.readByte a' :=
  Memory.readByte_writeByte_aux v a' h

/-- Of `n` bytes read in ascending order, the `t`-th is at the `t`-th address. -/
theorem Memory.getElem?_bytesFrom (m : Memory) {n t : Nat} (a : Nat) (h : t < n) :
    (m.bytesFrom n a)[t]? = some (m.readByte (a + t)) := by
  induction n generalizing a t with
  | zero => omega
  | succ n ih =>
    cases t with
    | zero => rfl
    | succ t =>
      simp only [Memory.bytesFrom, List.getElem?_cons_succ]
      rw [ih (a + 1) (by omega)]
      congr 2
      omega

@[simp] theorem Memory.length_bytesFrom (m : Memory) (n a : Nat) : (m.bytesFrom n a).length = n := by
  induction n generalizing a with
  | zero => rfl
  | succ n ih => simp [Memory.bytesFrom, ih]

end Sys2Proof.Machine
end

