-- ==== Sys2Proof/Laws/PerInstr.lean ====
section
/-!
SUPPORT. Facts about every instruction, one lemma per constructor.
-/

namespace Sys2Proof.Laws.EncodeLength

/-- The encoder writes as many bytes as the instruction's length (R71). -/
def Statement (i : Instr) : Prop := (encode i).length = i.length

theorem vpermdVex256 (e : VexFields) : Statement (.vpermdVex256 e) := length_encodeVex _ e
theorem vpermdEvex256 (e : EvexFields) : Statement (.vpermdEvex256 e) := length_encodeEvex _ _ _ e
theorem vpermdEvex512 (e : EvexFields) : Statement (.vpermdEvex512 e) := length_encodeEvex _ _ _ e
theorem vpermwEvex128 (e : EvexFields) : Statement (.vpermwEvex128 e) := length_encodeEvex _ _ _ e
theorem vpermwEvex256 (e : EvexFields) : Statement (.vpermwEvex256 e) := length_encodeEvex _ _ _ e
theorem vpermwEvex512 (e : EvexFields) : Statement (.vpermwEvex512 e) := length_encodeEvex _ _ _ e
theorem udVpermdVexL0 (e : VexFields) : Statement (.udVpermdVexL0 e) := length_encodeVex _ e
theorem udVpermdEvexLL00 (e : EvexFields) : Statement (.udVpermdEvexLL00 e) :=
  length_encodeEvex _ _ _ e
theorem udVpermdEvexLL11 (e : EvexFields) : Statement (.udVpermdEvexLL11 e) :=
  length_encodeEvex _ _ _ e
theorem udVpermwEvexLL11 (e : EvexFields) : Statement (.udVpermwEvexLL11 e) :=
  length_encodeEvex _ _ _ e

end Sys2Proof.Laws.EncodeLength
end

