-- ==== Sys2Proof/Laws/Step.lean ====
section
/-!
SUPPORT. What a step can do, said once (R90): where an instruction may stand, when a step completes,
and a run as its first step and the rest.
-/

namespace Sys2Proof.Machine

/-- An instruction is not refused for where it stands exactly where it stays below the top of the
address space, at canonical addresses, and on one side of CODE_END (R17, R163). -/
theorem State.placement_eq_none {s : State} {len : Nat} :
    s.placement len = none ↔
      s.rip.toNat + len < 2 ^ 64 ∧ allCanonical s.cfg.la57 len s.rip = true ∧
        (s.cfg.codeEnd.toNat ≤ s.rip.toNat ∨ s.rip.toNat + len ≤ s.cfg.codeEnd.toNat) := by
  unfold State.placement
  rw [show addressSpace = 2 ^ 64 from rfl]
  split
  · simp; omega
  · split
    · simp_all
    · split
      · simp; omega
      · simp_all; omega

/-- A step completes exactly where an instruction is decoded, may stand there, is fetchable, and
completes (R47, R90). -/
theorem step_eq_next {s t : State} (h : step s = .next t) :
    ∃ i rest, s.cfg.mode64 = true ∧ s.rip ≠ s.cfg.codeEnd ∧ decode s.codeWindow = .ok i rest ∧
      s.placement i.length = none ∧ fetchRun s.cfg i.length s.rip = none ∧ exec i s = .next t := by
  unfold step State.fetch at h
  cases hm : s.cfg.mode64
  · simp [hm] at h
  · by_cases hr : s.rip = s.cfg.codeEnd
    · simp [hm, hr] at h
    · simp only [hm, hr, Bool.not_true, Bool.false_eq_true, if_false] at h
      cases hd : decode s.codeWindow with
      | reject w => simp [hd] at h
      | ok i rest =>
        simp only [hd] at h
        cases hp : s.placement i.length with
        | some r => simp [hp] at h
        | none =>
          simp only [hp, State.fetchChecked] at h
          cases hf : fetchRun s.cfg i.length s.rip with
          | none => exact ⟨i, rest, rfl, hr, rfl, hp, hf, by simpa [hf] using h⟩
          | some f =>
            simp only [hf] at h
            cases hq : s.report (ofFetchFault f :: decodeFaults (raisesUD s.cfg i) i.length) <;>
              simp [hq, raise] at h

/-- No instruction has fewer than five bytes (R71). -/
theorem five_le_length (i : Instr) : 5 ≤ i.length := by
  cases i <;> simp [Instr.length, VexFields.length, EvexFields.length] <;> omega

/-- A run of one step and more that completes is a completed step and a run from there. -/
theorem run_succ_eq_next {n : Nat} {s t : State} (h : Sys2Proof.core.run (n + 1) s = .next t) :
    ∃ u, step s = .next u ∧ Sys2Proof.core.run n u = .next t := by
  have e : Sys2Proof.core.step s = step s := rfl
  cases hs : step s with
  | next u => exact ⟨u, rfl, by simpa only [Host.Core.run, e, hs] using h⟩
  | fault f => rw [hs] at e; simp only [Host.Core.run, e] at h; cases h
  | refused r => rw [hs] at e; simp only [Host.Core.run, e] at h; cases h

end Sys2Proof.Machine
end

