-- ==== Sys2Proof/Tests/Slice0.lean ====
section
/-!
SUPPORT. Tests against words and values written out from the spec (the ids T, X, A, M, F are those of
spec/95_test_vectors.md), and for every statement with hypotheses a witness that meets them.
-/

namespace Sys2Proof.Tests

set_option Elab.async false

open Sys2Proof.Machine Sys2Proof.Safety

/-! ### Helpers -/

/-- The next state, where the outcome is one. -/
def nextOf : Host.Outcome State Fault Refusal → Option State
  | .next t => some t
  | .fault _ => none
  | .refused _ => none

/-- The fault, where the outcome is one. -/
def faultOf : Host.Outcome State Fault Refusal → Option Fault
  | .next _ => none
  | .fault f => some f
  | .refused _ => none

/-- The refusal, where the outcome is one. -/
def refusalOf : Host.Outcome State Fault Refusal → Option Refusal
  | .next _ => none
  | .fault _ => none
  | .refused r => some r

theorem exists_next {o : Host.Outcome State Fault Refusal} (h : (nextOf o).isSome = true) :
    ∃ t, o = .next t := by
  cases o with
  | next t => exact ⟨t, rfl⟩
  | fault f => cases h
  | refused r => cases h

theorem eq_fault {o : Host.Outcome State Fault Refusal} {f : Fault} (h : faultOf o = some f) :
    o = .fault f := by
  cases o with
  | next t => cases h
  | fault g => cases h; rfl
  | refused r => cases h

theorem eq_refused {o : Host.Outcome State Fault Refusal} {r : Refusal} (h : refusalOf o = some r) :
    o = .refused r := by
  cases o with
  | next t => cases h
  | fault g => cases h
  | refused q => cases h; rfl

/-- A vector from its elements, element 0 first. -/
def lanes (w : Nat) : List Nat → BitVec 512
  | [] => 0#512
  | e :: es => lanes w es <<< w ||| BitVec.ofNat 512 e

/-- `n` elements `first`, `first + 1`, ... -/
def count (first : Nat) : Nat → List Nat
  | 0 => []
  | n + 1 => first :: count (first + 1) n

/-- `n` elements `last`, `last - 1`, ... -/
def countDown (last : Nat) : Nat → List Nat
  | 0 => []
  | n + 1 => last :: countDown (last - 1) n

/-- The old destination of the vectors T9 to T17. -/
def oldDwords : List Nat :=
  [0x11111111, 0x22222222, 0x33333333, 0x44444444, 0x55555555, 0x66666666, 0x77777777, 0x88888888]

/-- `k[a] <- v`. -/
def setMask (s : State) (a : Nat) (v : Word64) : State := { s with k := s.k.setIfInBounds a v }

/-- `gpr[g] <- v`. -/
def setGpr (s : State) (g : Nat) (v : Word64) : State := { s with gpr := s.gpr.setIfInBounds g v }

/-- The bytes stored at an address. -/
def store (s : State) (a : Word64) (bytes : List Byte) : State :=
  { s with mem := s.mem.writeBytes a bytes }

/-- `State.reset` with code at its `rip`. -/
def running (code : List Byte) : State := store State.reset State.reset.rip code

/-- The data area's address in the tests. -/
abbrev DB : Word64 := 0x412AA000#64

/-- Doublewords `A0000000h`, ... at `DB`, and `RAX = DB + off`. -/
def withData (s : State) (off : Word64) : State :=
  setGpr (store s DB ((count 0xA0000000 16).flatMap (bytesOfWord 4))) 0 (DB + off)

/-- The page after `DB`'s is denied to every read (section 7 of the vectors). -/
def denyNextPage : List ReadDenial :=
  [4, 16, 32, 64].map fun n => ⟨0x412AB001 - n, 0x412ABFFF, n, .pageFault 4#32⟩

/-- With other launch parameters. -/
def launched (s : State) (c : Launch) : State := { s with cfg := c }

/-- A part with AVX2 only (R5, decision D2). -/
def avx2Only : Launch :=
  { initialLaunch with
    maxVl := .bits256, nvec := 16, nk := 0, kw := 0, hasAvx512f := false, hasAvx512vl := false,
    hasAvx512bw := false, osAvx512Enabled := false }

/-- Every feature flag with a MAXVL of 256: no combination R5 gives. -/
def narrow : Launch := { initialLaunch with maxVl := .bits256 }

/-! ### Well-formedness: an ill-formed term for each check -/

theorem test_wf_index_four :
    (Instr.vpermdVex256 ⟨[], 0, 1, .mem (.sib 0 (some ⟨4, 0⟩) .none)⟩).wf = false := by decide
theorem test_wf_index_four_without_base :
    (Instr.vpermdEvex256 ⟨[], 0, 1, .mem (.sibNoBase (some ⟨4, 3⟩) 0), 0, false, false⟩).wf = false := by
  decide
theorem test_wf_base_five_without_displacement :
    (Instr.vpermdEvex512 ⟨[], 0, 1, .mem (.based 13 .none), 0, false, false⟩).wf = false := by decide
theorem test_wf_sib_base_five_without_displacement :
    (Instr.vpermwEvex128 ⟨[], 0, 1, .mem (.sib 5 none .none), 0, false, false⟩).wf = false := by decide
theorem test_wf_base_four_without_sib :
    (Instr.vpermwEvex256 ⟨[], 0, 1, .mem (.based 12 (.d8 0)), 0, false, false⟩).wf = false := by decide
theorem test_wf_index_twelve :
    (Instr.vpermwEvex512 ⟨[], 0, 1, .mem (.sib 5 (some ⟨12, 1⟩) (.d8 0)), 0, false, false⟩).wf = true := by
  decide

/-! ### Decoding: a word of each constructor, written out bit by bit (R52, R54, R55) -/

/-- T7: `~R ~X ~B mmmmm = 0 1 1 00010`, `W ~vvvv L pp = 0 0000 1 01`, ModRM `00 000 000`. -/
theorem test_decode_vpermdVex256 :
    decode [0xC4#8, 0b01100010#8, 0b00000101#8, 0x36#8, 0b00000000#8] =
      .ok (.vpermdVex256 ⟨[], 8, 15, .mem (.based 0 .none)⟩) [] := by decide
/-- T13: P0 `1 1 1 1 0010`, P1 `0 1101 1 01`, P2 `0 01 1 1 010`, ModRM `01 001 000`, disp8 2. -/
theorem test_decode_vpermdEvex256 :
    decode [0x62#8, 0b11110010#8, 0b01101101#8, 0b00111010#8, 0x36#8, 0b01001000#8, 2#8] =
      .ok (.vpermdEvex256 ⟨[], 1, 2, .mem (.based 0 (.d8 2)), 2, false, true⟩) [] := by decide
/-- T16: P0 `1 1 1 0 0010` (R' for register 17), P1 `0 0001 1 01`, P2 `0 10 0 0 111` (V' for 30). -/
theorem test_decode_vpermdEvex512 :
    decode [0x62#8, 0b11100010#8, 0b00001101#8, 0b01000111#8, 0x36#8, 0b01001011#8, 1#8] =
      .ok (.vpermdEvex512 ⟨[], 17, 30, .mem (.based 3 (.d8 1)), 7, false, false⟩) [] := by decide
/-- T19: P2 `1 00 0 1 001`: zeroing, L'L = 00b, k1. -/
theorem test_decode_vpermwEvex128 :
    decode [0x62#8, 0b11110010#8, 0b11101101#8, 0b10001001#8, 0x8D#8, 0b11001011#8] =
      .ok (.vpermwEvex128 ⟨[], 1, 2, .reg 3, 1, true, false⟩) [] := by decide
/-- T21: P2 `0 01 0 1 000`, ModRM `01 001 001`, disp8 1. -/
theorem test_decode_vpermwEvex256 :
    decode [0x62#8, 0b11110010#8, 0b11101101#8, 0b00101000#8, 0x8D#8, 0b01001001#8, 1#8] =
      .ok (.vpermwEvex256 ⟨[], 1, 2, .mem (.based 1 (.d8 1)), 0, false, false⟩) [] := by decide
/-- T24: P0 `1 0 1 1 0010` (X for index R9), ModRM `01 001 100`, SIB `10 001 010`, disp8 2. -/
theorem test_decode_vpermwEvex512 :
    decode [0x62#8, 0b10110010#8, 0b11101101#8, 0b01001010#8, 0x8D#8, 0b01001100#8, 0b10001010#8, 2#8] =
      .ok (.vpermwEvex512 ⟨[], 1, 2, .mem (.sib 2 (some ⟨9, 2⟩) (.d8 2)), 2, false, false⟩) [] := by
  decide
/-- X1: L, bit 2 of P2, clear. -/
theorem test_decode_udVpermdVexL0 :
    decode [0xC4#8, 0b11100010#8, 0b01110001#8, 0x36#8, 0b11000010#8] =
      .ok (.udVpermdVexL0 ⟨[], 0, 1, .reg 2⟩) [] := by decide
/-- X2: L'L, bits 6:5 of P2, 00b. -/
theorem test_decode_udVpermdEvexLL00 :
    decode [0x62#8, 0b11110010#8, 0b01101101#8, 0b00001000#8, 0x36#8, 0b11001011#8] =
      .ok (.udVpermdEvexLL00 ⟨[], 1, 2, .reg 3, 0, false, false⟩) [] := by decide
/-- X3: L'L 11b. -/
theorem test_decode_udVpermdEvexLL11 :
    decode [0x62#8, 0b11110010#8, 0b01101101#8, 0b01101000#8, 0x36#8, 0b11001011#8] =
      .ok (.udVpermdEvexLL11 ⟨[], 1, 2, .reg 3, 0, false, false⟩) [] := by decide
/-- X4: L'L 11b. -/
theorem test_decode_udVpermwEvexLL11 :
    decode [0x62#8, 0b11110010#8, 0b11101101#8, 0b01101000#8, 0x8D#8, 0b11001011#8] =
      .ok (.udVpermwEvexLL11 ⟨[], 1, 2, .reg 3, 0, false, false⟩) [] := by decide
/-- A10: SIB base 101b with `mod = 00b` is no base; the displacement is little-endian. -/
theorem test_decode_no_base :
    decode [0xC4#8, 0xE2#8, 0x75#8, 0x36#8, 0b00000100#8, 0b10001101#8, 0x20#8, 1#8, 0#8, 0x80#8] =
      .ok (.vpermdVex256 ⟨[], 0, 1, .mem (.sibNoBase (some ⟨1, 2⟩) 0x80000120)⟩) [] := by decide
/-- A11: `mod = 00b`, `rm = 101b` is relative to the next instruction. -/
theorem test_decode_rip_relative :
    decode [0xC4#8, 0xE2#8, 0x75#8, 0x36#8, 0b00000101#8, 0xF7#8, 0x12#8, 0#8, 0#8] =
      .ok (.vpermdVex256 ⟨[], 0, 1, .mem (.ripRel 0x12F7)⟩) [] := by decide
/-- T22's word as `decodeTableWord` numbers it, five bytes, with zeros after them. -/
theorem test_table_word :
    decodeTableWord 40 0x8D40FD2262 =
      some (.vpermwEvex512 ⟨[], 24, 16, .mem (.based 0 .none), 0, false, false⟩) := by decide

/-! ### What the instructions compute -/

/-- T5: destination and SRC2 are one register. -/
theorem test_vpermdVex256_snapshot :
    (nextOf (step (((running [0xC4#8, 0xE2#8, 0x75#8, 0x36#8, 0xC0#8]).writeZmm 0
      (lanes 32 (count 0xA0000000 8 ++ List.replicate 8 0xFFFFFFFF))).writeZmm 1
      (lanes 32 [1, 2, 3, 4, 5, 6, 7, 0])))).map (fun t => (t.readZmm 0, t.rip)) =
      some (lanes 32 (count 0xA0000001 7 ++ [0xA0000000]), 0xFFFFFFF5#64) := by decide +kernel
/-- T7: an odd address. -/
theorem test_vpermdVex256_memory :
    (nextOf (step (setGpr (store ((running [0xC4#8, 0x62#8, 0x05#8, 0x36#8, 0x00#8]).writeZmm 15
      (lanes 32 [7, 0, 6, 1, 5, 2, 4, 3])) (DB + 0x21#64)
      ((count 0xA0000000 8).flatMap (bytesOfWord 4))) 0 (DB + 0x21#64)))).map (State.readZmm · 8) =
      some (lanes 32 [0xA0000007, 0xA0000000, 0xA0000006, 0xA0000001, 0xA0000005, 0xA0000002,
        0xA0000004, 0xA0000003]) := by decide +kernel
/-- T9: merging. -/
theorem test_vpermdEvex256_merging :
    (nextOf (step (setMask ((((running [0x62#8, 0xF2#8, 0x6D#8, 0x29#8, 0x36#8, 0xCB#8]).writeZmm 1
      (lanes 32 (oldDwords ++ List.replicate 8 0x99999999))).writeZmm 2
      (lanes 32 [7, 6, 5, 4, 3, 2, 1])).writeZmm 3 (lanes 32 (count 0xA0000000 8))) 1 0xA5))).map
      (State.readZmm · 1) =
      some (lanes 32 [0xA0000007, 0x22222222, 0xA0000005, 0x44444444, 0x55555555, 0xA0000002,
        0x77777777, 0xA0000000]) := by decide +kernel
/-- T13: broadcast, an 8-bit displacement scaled by 4. -/
theorem test_vpermdEvex256_broadcast :
    (nextOf (step (setMask (((withData (running
      [0x62#8, 0xF2#8, 0x6D#8, 0x3A#8, 0x36#8, 0x48#8, 0x02#8]) 0).writeZmm 1
      (lanes 32 (oldDwords ++ List.replicate 8 0x99999999))).writeZmm 2 (lanes 32 (count 0 8)))
      2 0x0F))).map (State.readZmm · 1) =
      some (lanes 32 [0xA0000002, 0xA0000002, 0xA0000002, 0xA0000002, 0x55555555, 0x66666666,
        0x77777777, 0x88888888]) := by decide +kernel
/-- T15: index bits 31:4 are ignored. -/
theorem test_vpermdEvex512_high_index_bits :
    (nextOf (step (((running [0x62#8, 0xF2#8, 0x6D#8, 0x48#8, 0x36#8, 0xCB#8]).writeZmm 2
      (lanes 32 ([0x13, 0x23, 0xFFFFFFF0, 0x80000001] ++ count 0x104 12))).writeZmm 3
      (lanes 32 (count 0xA0000000 16))))).map (State.readZmm · 1) =
      some (lanes 32 ([0xA0000003, 0xA0000003, 0xA0000000, 0xA0000001] ++ count 0xA0000004 12)) := by
  decide +kernel
/-- T17: broadcast under zeroing. -/
theorem test_vpermdEvex512_broadcast_zeroing :
    (nextOf (step (setMask ((withData (running
      [0x62#8, 0xF2#8, 0x6D#8, 0xD9#8, 0x36#8, 0x48#8, 0x01#8]) 0).writeZmm 1 (BitVec.allOnes 512))
      1 0x8001))).map (State.readZmm · 1) =
      some (lanes 32 ([0xA0000001] ++ List.replicate 14 0 ++ [0xA0000001])) := by decide +kernel
/-- T18: bits 511:128 become zero. -/
theorem test_vpermwEvex128_upper_bits :
    (nextOf (step ((((running [0x62#8, 0xF2#8, 0xED#8, 0x08#8, 0x8D#8, 0xCB#8]).writeZmm 1
      (BitVec.allOnes 512)).writeZmm 2 (lanes 16 (countDown 7 8))).writeZmm 3
      (lanes 16 (count 0xB000 8))))).map (State.readZmm · 1) =
      some (lanes 16 (countDown 0xB007 8)) := by decide +kernel
/-- T19: zeroing; index bits 15:3 ignored. -/
theorem test_vpermwEvex128_zeroing :
    (nextOf (step (setMask ((((running [0x62#8, 0xF2#8, 0xED#8, 0x89#8, 0x8D#8, 0xCB#8]).writeZmm 1
      (BitVec.allOnes 512)).writeZmm 2
      (lanes 16 [8, 0xFFF9, 0x8002, 0x1B, 0x7FFC, 0xFD, 0x10E, 0xFFFF])).writeZmm 3
      (lanes 16 (count 0xB000 32))) 1 0xFFFFFFFFFFFFFF7E))).map (State.readZmm · 1) =
      some (lanes 16 [0, 0xB001, 0xB002, 0xB003, 0xB004, 0xB005, 0xB006]) := by decide +kernel
/-- T20: merging, sixteen words. -/
theorem test_vpermwEvex256_merging :
    (nextOf (step (setMask ((((running [0x62#8, 0xF2#8, 0xED#8, 0x2A#8, 0x8D#8, 0xCB#8]).writeZmm 1
      (lanes 16 (count 0x1111 32))).writeZmm 2 (lanes 16 (countDown 15 16))).writeZmm 3
      (lanes 16 (count 0xB000 16))) 2 0x0F0F))).map (State.readZmm · 1) =
      some (lanes 16 (countDown 0xB00F 4 ++ count 0x1115 4 ++ countDown 0xB007 4 ++ count 0x111D 4)) := by
  decide +kernel
/-- T21: an 8-bit displacement scaled by 32; index bit 4 ignored. -/
theorem test_vpermwEvex256_memory :
    (nextOf (step ((setGpr (store (running [0x62#8, 0xF2#8, 0xED#8, 0x28#8, 0x8D#8, 0x49#8, 0x01#8])
      (DB + 0x20#64) ((count 0xB000 16).flatMap (bytesOfWord 2))) 1 DB).writeZmm 2
      (lanes 16 (count 0x10 16))))).map (State.readZmm · 1) =
      some (lanes 16 (count 0xB000 16)) := by decide +kernel
/-- T22: registers 16, 17 and 31. -/
theorem test_vpermwEvex512_high_registers :
    (nextOf (step (((running [0x62#8, 0x22#8, 0xFD#8, 0x40#8, 0x8D#8, 0xF9#8]).writeZmm 16
      (lanes 16 (countDown 31 32))).writeZmm 17 (lanes 16 (count 0xB000 32))))).map
      (State.readZmm · 31) = some (lanes 16 (countDown 0xB01F 32)) := by decide +kernel
/-- T24: base, scaled index and an 8-bit displacement scaled by 64. -/
theorem test_vpermwEvex512_sib :
    (nextOf (step (setMask ((setGpr (setGpr (store (running
      [0x62#8, 0xB2#8, 0xED#8, 0x4A#8, 0x8D#8, 0x4C#8, 0x8A#8, 0x02#8])
      (DB + 0x90#64) ((count 0xB000 32).flatMap (bytesOfWord 2))) 2 DB) 9 4).writeZmm 2
      (lanes 16 (count 0 32))) 2 0xFFFF))).map (State.readZmm · 1) =
      some (lanes 16 (count 0xB000 16)) := by decide +kernel
/-- X1. -/
theorem test_udVpermdVexL0 :
    faultOf (step (running [0xC4#8, 0xE2#8, 0x71#8, 0x36#8, 0xC2#8])) = some .invalidOpcode := by
  decide +kernel
/-- X2. -/
theorem test_udVpermdEvexLL00 :
    faultOf (step (running [0x62#8, 0xF2#8, 0x6D#8, 0x08#8, 0x36#8, 0xCB#8])) =
      some .invalidOpcode := by decide +kernel
/-- X3. -/
theorem test_udVpermdEvexLL11 :
    faultOf (step (running [0x62#8, 0xF2#8, 0x6D#8, 0x68#8, 0x36#8, 0xCB#8])) =
      some .invalidOpcode := by decide +kernel
/-- X4. -/
theorem test_udVpermwEvexLL11 :
    faultOf (step (running [0x62#8, 0xF2#8, 0xED#8, 0x68#8, 0x8D#8, 0xCB#8])) =
      some .invalidOpcode := by decide +kernel

/-! ### Addresses, faults and refusals -/

/-- A13: under 67h base and index are added modulo 2^32; A15: a negative scaled displacement. -/
theorem test_address_size_and_scale :
    (setGpr (setGpr State.reset 0 (DB + 0x48#64)) 1 0x100000000).effAddr [.addr32] 1 0
      (.sib 0 (some ⟨1, 0⟩) .none) = DB + 0x48#64 ∧
    (setGpr State.reset 0 (DB + 0x140#64)).effAddr [] 32 0 (.based 0 (.d8 0xFE)) = DB + 0x100#64 := by
  decide +kernel
/-- X38, X39, X40: the last of 64h and 65h, and 3Eh does not cancel it. -/
theorem test_last_segment :
    lastSeg [.fs, .gs] = some .gs ∧ lastSeg [.gs, .fs] = some .fs ∧ lastSeg [.fs, .ds] = some .fs := by
  decide
/-- R130's vector numbers and error codes. -/
theorem test_exception_numbers :
    (([.invalidOpcode, .deviceNotAvailable, .stackFault, .generalProtection, .pageFault 4,
      .alignmentCheck] : List Fault).map fun f => (f.vector, f.errorCode)) =
      [(6, none), (7, none), (12, some 0), (13, some 0), (14, some 4), (17, some 0)] := by decide
/-- X23: sixteen bytes. -/
theorem test_sixteen_bytes :
    faultOf (step (running (List.replicate 11 0x2E#8 ++ [0xC4#8, 0xE2#8, 0x75#8, 0x36#8, 0x00#8]))) =
      some .generalProtection := by decide +kernel
/-- X29: EVEX.W1 with 36h is another instruction. -/
theorem test_other_instruction :
    refusalOf (step (running [0x62#8, 0xF2#8, 0xED#8, 0x28#8, 0x36#8, 0xCB#8])) =
      some (.outOfScope .evexOpcode) := by decide +kernel
/-- M1 and M4: the whole operand is read although the mask is zero. -/
theorem test_no_fault_suppression :
    faultOf (step (launched (withData (running [0x62#8, 0xF2#8, 0x6D#8, 0x49#8, 0x36#8, 0x08#8]) 0xFE0)
      { initialLaunch with readDenied := denyNextPage })) = some (.pageFault 4) ∧
    (nextOf (step (launched
      (withData (running [0x62#8, 0xF2#8, 0x6D#8, 0x49#8, 0x36#8, 0x08#8]) 0xFC0)
      { initialLaunch with readDenied := denyNextPage }))).isSome = true := by decide +kernel
/-- M14 and M13 at offset 1: only the broadcast read is checked. -/
theorem test_alignment_check :
    faultOf (step (launched (withData (running [0x62#8, 0xF2#8, 0x6D#8, 0x58#8, 0x36#8, 0x08#8]) 1)
      { initialLaunch with alignCheck := true })) = some .alignmentCheck ∧
    (nextOf (step (launched (withData (running [0x62#8, 0xF2#8, 0x6D#8, 0x48#8, 0x36#8, 0x08#8]) 1)
      { initialLaunch with alignCheck := true }))).isSome = true := by decide +kernel
/-- F5: #UD before #NM. -/
theorem test_invalid_opcode_before_device :
    faultOf (step (launched (running [0x62#8, 0xF2#8, 0x6D#8, 0x28#8, 0x36#8, 0xCB#8])
      { initialLaunch with ts := true, hasAvx512vl := false })) = some .invalidOpcode := by
  decide +kernel
/-- R5, R96: a part with AVX2 only has 256 bits of a vector register, and of its writes no more is kept. -/
theorem test_avx2_only_width :
    ((launched State.reset avx2Only).writeZmm 3 (BitVec.allOnes 512)).readZmm 3 =
      lanes 32 (List.replicate 8 0xFFFFFFFF) := by decide +kernel
/-- R5, R132: on a part with AVX2 only T5 executes and T9 raises #UD. -/
theorem test_avx2_only_part :
    (nextOf (step (((launched (running [0xC4#8, 0xE2#8, 0x75#8, 0x36#8, 0xC0#8]) avx2Only).writeZmm 0
      (lanes 32 (count 0xA0000000 8))).writeZmm 1
      (lanes 32 [1, 2, 3, 4, 5, 6, 7, 0])))).map (State.readZmm · 0) =
      some (lanes 32 (count 0xA0000001 7 ++ [0xA0000000])) ∧
    faultOf (step (launched (running [0x62#8, 0xF2#8, 0x6D#8, 0x29#8, 0x36#8, 0xCB#8]) avx2Only)) =
      some .invalidOpcode := by decide +kernel
/-- R5, R7: where the sizes do not go with the flags, what needs an absent register or bit of one has no
meaning (log entry 20). -/
theorem test_absent_state :
    refusalOf (step (launched (running [0x62#8, 0xF2#8, 0x6D#8, 0x48#8, 0x36#8, 0xCB#8]) narrow)) =
      some .absentState ∧
    (nextOf (step (launched (running [0x62#8, 0xF2#8, 0x6D#8, 0x28#8, 0x36#8, 0xCB#8]) narrow))).isSome =
      true := by decide +kernel
/-- From `State.reset` with nothing placed the bytes are zeros, which are no instruction in scope. -/
theorem test_reset_refuses :
    refusalOf (step State.reset) = some (.outOfScope .notVexOrEvex) := by decide +kernel
/-- Memory keeps its canonical form, and writing zero removes the entry. -/
theorem test_memory_canonical :
    Memory.writeByte (Memory.writeByte [] 5 7#8) 5 0#8 = [] ∧
      (running [0xC4#8, 0#8, 0x75#8]).mem.wf = true := by decide +kernel

/-! ### Witnesses: a state and operands that meet a statement's hypotheses -/

/-- `RAX = DB`, data at `DB`, `k1` with bits 0 and 1 clear. -/
def base : State := setMask (withData State.reset 0) 1 0xFFFFFFFFFFFFFFFC

/-- `base` with other launch parameters. -/
def baseWith (c : Launch) : State := launched base c

/-- A VEX form with the operand `[rax]`. -/
def vexMem : VexFields := ⟨[], 0, 1, .mem (.based 0 .none)⟩

/-- A VEX form with a register operand. -/
def vexReg : VexFields := ⟨[], 15, 15, .reg 15⟩

/-- An EVEX form with the operand `[rax]`, under `k1`. -/
def evexMem (z b : Bool) : EvexFields := ⟨[], 1, 2, .mem (.based 0 .none), 1, z, b⟩

/-- An EVEX form with a register operand, without a writemask. -/
def evexReg : EvexFields := ⟨[], 31, 16, .reg 17, 0, false, false⟩

/-- `n` null prefixes. -/
def nulls (n : Nat) : List LegacyPrefix := List.replicate n .cs

theorem witness_DecodeOfEncodeIsTheInstruction :
    (Instr.vpermwEvex512 ⟨[.fs, .rex 8], 31, 16, .mem (.sib 5 (some ⟨12, 3⟩) (.d8 0x80)), 7, true, true⟩).WellFormed ∧
      (Instr.udVpermdVexL0 ⟨[], 0, 1, .mem (.sibNoBase none 0xFFFFFFFF)⟩).WellFormed := by decide
theorem witness_DecodedInstructionIsWellFormedAndMeasured :
    decode (encode (.vpermdVex256 vexMem) ++ [0x90#8]) = .ok (.vpermdVex256 vexMem) [0x90#8] := by decide
theorem witness_DecodeReadsOnlyTheInstructionBytes :
    decode ([0x62#8, 0xF2#8, 0xED#8, 0x28#8, 0x8D#8, 0x49#8, 0x01#8] ++ [0xC5#8]) =
      .ok (.vpermwEvex256 ⟨[], 1, 2, .mem (.based 1 (.d8 1)), 0, false, false⟩) [0xC5#8] := by decide
theorem witness_NeighbouringEncodingsAreRefused :
    (0xF5#8).getLsbD 7 = true ∧ (0x6D#8).getLsbD 7 = false ∧ (0xF6#8).getLsbD 2 = true ∧
      (0xFA#8).getLsbD 3 = true ∧ (0x69#8).getLsbD 2 = false := by decide
theorem witness_LegacyPrefixEffects :
    ∀ p ∈ [LegacyPrefix.ds, .addr32, .rex 15], p ≠ .fs ∧ p ≠ .gs := by decide
theorem witness_InvalidLegacyPrefixRaisesUD :
    (Instr.vpermdVex256 ⟨.opsize :: nulls 9, 0, 1, .mem (.based 0 .none)⟩).length ≤ 15 ∧
      LegacyPrefix.opsize ∈ legacyOf (.vpermdVex256 ⟨.opsize :: nulls 9, 0, 1, .mem (.based 0 .none)⟩) ∧
      LegacyPrefix.repne ∈ legacyOf (.udVpermdVexL0 ⟨[.repne], 0, 1, .reg 2⟩) ∧
      LegacyPrefix.rep ∈ legacyOf (.udVpermdVexL0 ⟨[.rep, .cs], 0, 1, .reg 2⟩) ∧
      LegacyPrefix.lock ∈ legacyOf (.vpermdVex256 ⟨[.lock], 0, 1, .reg 2⟩) ∧
      legacyOf (.vpermdVex256 ⟨[.cs, .rex 8], 0, 1, .reg 2⟩) = [.cs] ++ [LegacyPrefix.rex 8] := by decide
theorem witness_VpermdVex256Completes :
    sizesSuffice base.cfg = true ∧ sizesSuffice (baseWith avx2Only).cfg = true ∧
      vexEnabled base.cfg = true ∧ vexLegal vexMem = true ∧ vexLegal vexReg = true ∧
      vexLegal ⟨nulls 10, 0, 1, .reg 2⟩ = true ∧
      operandOk base [] 1 vexMem.length 32 false (widen vexMem.src2) = true ∧
      operandOk base [] 1 vexReg.length 32 false (widen vexReg.src2) = true := by decide +kernel
theorem witness_VpermdEvex256Completes :
    sizesSuffice base.cfg = true ∧
      evexEnabled (base.cfg.hasAvx512f && base.cfg.hasAvx512vl) base.cfg = true ∧
      evexLegal true (evexMem true true) = true ∧ evexLegal true evexReg = true ∧
      operandOk base [] 4 (evexMem true true).length 4 true (evexMem true true).src2 = true ∧
      operandOk base [] 32 (evexMem false false).length 32 false (evexMem false false).src2 = true := by
  decide +kernel
theorem witness_VpermdEvex512Completes :
    sizesSuffice base.cfg = true ∧
      evexEnabled base.cfg.hasAvx512f base.cfg = true ∧ evexLegal true (evexMem true true) = true ∧
      operandOk base [] 4 (evexMem true true).length 4 true (evexMem true true).src2 = true ∧
      operandOk base [] 64 (evexMem false false).length 64 false (evexMem false false).src2 = true := by
  decide +kernel
theorem witness_VpermwEvex128Completes :
    sizesSuffice base.cfg = true ∧
      evexEnabled (base.cfg.hasAvx512bw && base.cfg.hasAvx512vl) base.cfg = true ∧
      evexLegal false (evexMem true false) = true ∧ evexLegal false evexReg = true ∧
      operandOk base [] 16 (evexMem true false).length 16 false (evexMem true false).src2 = true := by
  decide +kernel
theorem witness_VpermwEvex256Completes :
    sizesSuffice base.cfg = true ∧
      evexEnabled (base.cfg.hasAvx512bw && base.cfg.hasAvx512vl) base.cfg = true ∧
      evexLegal false (evexMem false false) = true ∧
      operandOk base [] 32 (evexMem false false).length 32 false (evexMem false false).src2 = true := by
  decide +kernel
theorem witness_VpermwEvex512Completes :
    sizesSuffice base.cfg = true ∧
      evexEnabled base.cfg.hasAvx512bw base.cfg = true ∧ evexLegal false (evexMem false false) = true ∧
      operandOk base [] 64 (evexMem false false).length 64 false (evexMem false false).src2 = true := by
  decide +kernel
theorem witness_CompletedStepFrame :
    (∃ t, exec (.vpermdVex256 vexMem) base = .next t) ∧
      ∃ t, exec (.vpermwEvex512 (evexMem true false)) base = .next t :=
  ⟨exists_next (by decide +kernel), exists_next (by decide +kernel)⟩
theorem witness_UpperBitsAreZeroedWhateverTheMask :
    (∃ t, exec (.vpermwEvex128 (evexMem false false)) base = .next t) ∧
      vlOf (.vpermwEvex128 (evexMem false false)) ≤ 128 :=
  ⟨exists_next (by decide +kernel), by decide⟩
theorem witness_MaskedOffElements :
    (∀ z b, (evexMem z b).aaa ≠ 0#3) ∧ (base.readMask 1).getLsbD 1 = false ∧ (1 < 8) ∧
      (∃ t, exec (.vpermdEvex256 (evexMem false true)) base = .next t) ∧
      (∃ t, exec (.vpermdEvex512 (evexMem true false)) base = .next t) ∧
      (∃ t, exec (.vpermwEvex128 (evexMem true false)) base = .next t) ∧
      (∃ t, exec (.vpermwEvex256 (evexMem false false)) base = .next t) ∧
      ∃ t, exec (.vpermwEvex512 (evexMem true false)) base = .next t :=
  ⟨by decide, by decide +kernel, by decide, exists_next (by decide +kernel),
    exists_next (by decide +kernel), exists_next (by decide +kernel), exists_next (by decide +kernel),
    exists_next (by decide +kernel)⟩
theorem witness_VexShiftFormulaAgrees :
    (∃ t, exec (.vpermdVex256 vexMem) base = .next t) ∧ 7 < 8 :=
  ⟨exists_next (by decide +kernel), by decide⟩
theorem witness_VexAndUnmaskedEvexAgree :
    base.effAddr [] 1 (base.rip + 5#64) (.based 0 .none) =
        base.effAddr [] 32 (base.rip + 6#64) (.based 0 .none) ∧
      (∃ t, exec (.vpermdVex256 vexMem) base = .next t) ∧
      ∃ t, exec (.vpermdEvex256 ⟨[], 0, 1, widen vexMem.src2, 0, false, false⟩) base = .next t :=
  ⟨by decide +kernel, exists_next (by decide +kernel), exists_next (by decide +kernel)⟩
theorem witness_RepeatedAndIdentityIndices :
    (∀ j, j < 16 → vpermd512.index (lanes 32 (List.replicate 16 0xFFFFFFFF)) j = 15) ∧
      ∀ j, j < 16 → vpermd512.index (lanes 32 (count 0x100 16)) j = j := by decide +kernel
theorem witness_EveryIndexIsInRange :
    vpermw512 ∈ [vpermd256, vpermd512, vpermw128, vpermw256, vpermw512] := by decide
theorem witness_BitsAboveTheLengthAreNotRead :
    AgreeBelow 256 8 base (setMask (base.writeZmm 1 (1#512 <<< 256)) 1 0xFC) ∧
      (∃ t, exec (.vpermdEvex256 (evexMem false false)) base = .next t) ∧
      exec (.vpermdEvex256 ⟨[], 1, 2, .reg 3, 0, true, false⟩) base = .fault .invalidOpcode ∧
      exec (.vpermdEvex512 evexReg) (baseWith narrow) = .refused .absentState :=
  ⟨⟨by decide +kernel, by decide +kernel, by simp [setMask], by simp [setMask], by simp [setMask],
      by simp [setMask], by simp [setMask]⟩,
    exists_next (by decide +kernel), eq_fault (by decide +kernel), eq_refused (by decide +kernel)⟩
theorem witness_HighIndexBitsAreIgnored :
    (evexMem true true).src1 ≠ (evexMem true true).dest ∧
      (evexMem false false).src2 ≠ .reg (evexMem false false).src1 ∧
      (∀ j, j < 16 → (lanes 32 (List.replicate 16 0xFFFFFFF0)).extractLsb' (32 * j) 4 =
        (base.readZmm 2).extractLsb' (32 * j) 4) ∧
      (∃ t, exec (.vpermdEvex512 (evexMem false false)) base = .next t) ∧
      ∃ t, exec (.vpermdEvex512 (evexMem false false))
        (base.writeZmm 2 (lanes 32 (List.replicate 16 0xFFFFFFF0))) = .next t :=
  ⟨by decide, by decide, by decide +kernel, exists_next (by decide +kernel),
    exists_next (by decide +kernel)⟩
theorem witness_BroadcastGivesOneDoubleword :
    (evexMem false true).b = true ∧ (evexMem false true).src2 = .mem (.based 0 .none) ∧
      (base.readMask 1).getLsbD 7 = true ∧ (base.readMask 1).getLsbD 15 = true ∧
      (∃ t, exec (.vpermdEvex256 (evexMem false true)) base = .next t) ∧
      ∃ t, exec (.vpermdEvex512 (evexMem false true)) base = .next t :=
  ⟨rfl, rfl, by decide +kernel, by decide +kernel, exists_next (by decide +kernel),
    exists_next (by decide +kernel)⟩
theorem witness_MemReadIsLittleEndian : 0 < 4 ∧ 63 < 64 := by decide
theorem witness_EveryPlatformPredicateIsRepresentable :
    ∀ n ∈ [4, 16, 32, 64], n = 4 ∨ n = 16 ∨ n = 32 ∨ n = 64 := by decide
theorem witness_ExecutionCompletesOrFaults :
    sizesSuffice base.cfg = true ∧ sizesSuffice (baseWith avx2Only).cfg = true ∧
      sizesSuffice { initialLaunch with hasAvx512bw := false, kw := 16 } = true ∧
      sizesSuffice narrow = false := by decide
theorem witness_AbsentStateIsRefused :
    let few := { initialLaunch with nvec := 31 }
    let noMasks := { initialLaunch with nk := 0 }
    let masks16 := { initialLaunch with kw := 16 }
    let masked : EvexFields := ⟨[], 1, 2, .reg 3, 7, false, false⟩
    (reachesOperand (baseWith narrow) (.vpermdEvex512 evexReg) = true ∧
      (∀ ea n checked, operandRead (baseWith narrow) (.vpermdEvex512 evexReg) = some (ea, n, checked) →
        readOk (baseWith narrow) ea n checked = true) ∧
      NeedsAbsentState narrow (.vpermdEvex512 evexReg)) ∧
    (reachesOperand (baseWith few) (.vpermwEvex128 ⟨[], 0, 0, .reg 31, 0, false, false⟩) = true ∧
      NeedsAbsentState few (.vpermwEvex128 ⟨[], 0, 0, .reg 31, 0, false, false⟩)) ∧
    (reachesOperand (baseWith noMasks) (.vpermdEvex256 masked) = true ∧
      NeedsAbsentState noMasks (.vpermdEvex256 masked)) ∧
    (reachesOperand (baseWith masks16) (.vpermwEvex512 masked) = true ∧
      NeedsAbsentState masks16 (.vpermwEvex512 masked)) ∧
    exec (.vpermwEvex512 masked) (baseWith masks16) = .refused .absentState :=
  ⟨⟨by decide, fun _ _ _ h => (nomatch h), .inl (by decide)⟩,
    ⟨by decide, .inr (.inl ⟨31, by decide, by decide⟩)⟩,
    ⟨by decide, .inr (.inr ⟨by decide, .inl (by decide)⟩)⟩,
    ⟨by decide, .inr (.inr ⟨by decide, .inr (by decide)⟩)⟩, eq_refused (by decide +kernel)⟩
theorem witness_Avx2OnlyPartRunsOnlyTheVexForm :
    let s := baseWith avx2Only
    s.cfg.maxVl = .bits256 ∧ s.cfg.hasAvx512f = false ∧ s.cfg.hasAvx512vl = false ∧
      s.cfg.hasAvx512bw = false ∧ (Instr.vpermdEvex256 evexReg).length ≤ 15 ∧
      16 ≤ s.cfg.nvec.val ∧ vexEnabled s.cfg = true ∧ vexLegal vexMem = true ∧
      operandOk s [] 1 vexMem.length 32 false (widen vexMem.src2) = true ∧
      (∀ r, (s.readZmm r) = 0) := by decide +kernel
theorem witness_LengthZeroOfVpermdRaisesUD :
    decode ([] ++ 0xC4#8 :: 0xE2#8 :: 0x71#8 :: 0x36#8 :: [0xC2#8]) =
        .ok (.udVpermdVexL0 ⟨[], 0, 1, .reg 2⟩) [] ∧ (0x71#8).getLsbD 2 = false ∧
      decode ([] ++ 0x62#8 :: 0xF2#8 :: 0x6D#8 :: 0x08#8 :: 0x36#8 :: [0xCB#8]) =
        .ok (.udVpermdEvexLL00 ⟨[], 1, 2, .reg 3, 0, false, false⟩) [] ∧
      decode ([] ++ 0x62#8 :: 0xF2#8 :: 0xED#8 :: 0x08#8 :: 0x8D#8 :: [0xCB#8]) =
        .ok (.vpermwEvex128 ⟨[], 1, 2, .reg 3, 0, false, false⟩) [] ∧
      (0x08#8).extractLsb' 5 2 = 0#2 ∧ (Instr.udVpermdVexL0 ⟨[], 0, 1, .reg 2⟩).length ≤ 15 := by decide
theorem witness_ReservedLengthRaisesUD :
    (⟨nulls 9, 1, 2, .reg 3, 0, false, false⟩ : EvexFields).length ≤ 15 := by decide
theorem witness_BroadcastBitWithoutBroadcastRaisesUD :
    (⟨[], 1, 2, .reg 3, 0, false, true⟩ : EvexFields).b = true ∧
      (⟨[], 1, 2, .reg 3, 0, false, true⟩ : EvexFields).length ≤ 15 ∧
      (evexMem false true).length ≤ 15 := by decide
theorem witness_ZeroingWithoutMaskRaisesUD :
    (⟨[], 1, 2, .reg 3, 0, true, false⟩ : EvexFields).z = true ∧
      (⟨[], 1, 2, .reg 3, 0, true, false⟩ : EvexFields).length ≤ 15 := by decide
theorem witness_MissingFeatureFlagRaisesUD :
    (baseWith { initialLaunch with hasAvx2 := false }).cfg.hasAvx2 = false ∧
      ¬((baseWith { initialLaunch with hasAvx512vl := false }).cfg.hasAvx512f = true ∧
        (baseWith { initialLaunch with hasAvx512vl := false }).cfg.hasAvx512vl = true) ∧
      (baseWith { initialLaunch with hasAvx512f := false }).cfg.hasAvx512f = false ∧
      ¬((baseWith { initialLaunch with hasAvx512bw := false }).cfg.hasAvx512bw = true ∧
        (baseWith { initialLaunch with hasAvx512bw := false }).cfg.hasAvx512vl = true) ∧
      vexMem.length ≤ 15 ∧ (evexMem false false).length ≤ 15 := by decide
theorem witness_MissingEnablingRaisesUD :
    (baseWith { initialLaunch with osAvxEnabled := false }).cfg.osAvxEnabled = false ∧
      (baseWith { initialLaunch with osAvx512Enabled := false }).cfg.osAvx512Enabled = false ∧
      vexReg.length ≤ 15 ∧ evexReg.length ≤ 15 := by decide
theorem witness_TaskSwitchedRaisesNM :
    raisesUD (baseWith { initialLaunch with ts := true }).cfg (.vpermwEvex512 evexReg) = false ∧
      (Instr.vpermwEvex512 evexReg).length ≤ 15 ∧
      (baseWith { initialLaunch with ts := true }).cfg.ts = true := by decide
theorem witness_OverlongInstructionFaults :
    15 < (Instr.vpermdVex256 ⟨nulls 11, 0, 1, .reg 2⟩).length ∧
      raisesUD base.cfg (.vpermdVex256 ⟨nulls 11, 0, 1, .reg 2⟩) = false ∧
      15 < (Instr.udVpermdVexL0 ⟨nulls 11, 0, 1, .reg 2⟩).length ∧
      raisesUD base.cfg (.udVpermdVexL0 ⟨nulls 11, 0, 1, .reg 2⟩) = true := by decide
theorem witness_OperandFaultsComeLast :
    exec (.vpermdVex256 ⟨[], 0, 1, .mem (.sib 4 none .none)⟩) (setGpr base 4 0x800000000000) =
        .fault .stackFault ∧
      exec (.vpermdEvex512 (evexMem false false))
        (setGpr (baseWith { initialLaunch with readDenied := denyNextPage }) 0 (DB + 0xFE0#64)) =
        .fault (.pageFault 4) ∧
      exec (.vpermdEvex256 (evexMem false true))
        (setGpr (baseWith { initialLaunch with alignCheck := true }) 0 (DB + 1#64)) =
        .fault .alignmentCheck :=
  ⟨eq_fault (by decide +kernel), eq_fault (by decide +kernel), eq_fault (by decide +kernel)⟩
theorem witness_PlatformAnswerIsTheFault :
    let s := setGpr (baseWith { initialLaunch with readDenied := denyNextPage }) 0 (DB + 0xFFD#64)
    operandRead s (.vpermdEvex512 (evexMem false true)) = some (DB + 0xFFD#64, 4, true) ∧
      reachesOperand s (.vpermdEvex512 (evexMem false true)) = true ∧
      allCanonical s.cfg.la57 4 (DB + 0xFFD#64) = true ∧
      memOK s.cfg (DB + 0xFFD#64) 4 = some (.pageFault 4) ∧ s.cfg.alignCheck = false := by
  decide +kernel
theorem witness_NonCanonicalOperandFaults :
    let s := setGpr base 5 0x7FFFFFFFFFF1
    let e : EvexFields := ⟨[], 1, 2, .mem (.based 5 (.d8 0)), 0, false, false⟩
    operandRead s (.vpermwEvex128 e) = some (0x7FFFFFFFFFF1#64, 16, false) ∧
      memOf (.vpermwEvex128 e) = some (.based 5 (.d8 0)) ∧
      reachesOperand s (.vpermwEvex128 e) = true ∧
      allCanonical s.cfg.la57 16 0x7FFFFFFFFFF1#64 = false ∧ memOK s.cfg 0x7FFFFFFFFFF1#64 16 = none ∧
      usesStackSegment [] (.based 5 (.d8 0)) = true ∧
      usesStackSegment [.fs] (.based 5 (.d8 0)) = false ∧
      usesStackSegment [] (.based 13 (.d8 0)) = false := by decide +kernel
theorem witness_MaskDoesNotSuppressFaults :
    let s := setMask (setGpr (baseWith { initialLaunch with readDenied := denyNextPage }) 0
      (DB + 0xFFE#64)) 1 0
    operandRead s (.vpermwEvex512 (evexMem true false)) = some (DB + 0xFFE#64, 64, false) ∧
      readOk s (DB + 0xFFE#64) 64 false = false := by decide +kernel
theorem witness_AlignmentCheckOnlyOnBroadcast :
    let s := setGpr (baseWith { initialLaunch with alignCheck := true }) 0 (DB + 3#64)
    s.effAddr [] 4 (s.rip + 6#64) (.based 0 .none) = DB + 3#64 ∧ s.cfg.alignCheck = true ∧
      (DB + 3#64).toNat % 4 ≠ 0 ∧ allCanonical s.cfg.la57 4 (DB + 3#64) = true ∧
      memOK s.cfg (DB + 3#64) 4 = none ∧
      reachesOperand s (.vpermdEvex256 (evexMem false true)) = true ∧
      reachesOperand s (.vpermdEvex512 (evexMem false true)) = true ∧
      faultOf (exec (.vpermdEvex512 (evexMem false true)) s) = some .alignmentCheck := by decide +kernel
theorem witness_RegisterOperandRaisesNoMemoryFault :
    memOf (.vpermdVex256 vexReg) = none ∧
      exec (.vpermdVex256 vexReg) (baseWith { initialLaunch with hasAvx2 := false }) =
        .fault .invalidOpcode ∧
      exec (.vpermdVex256 vexReg) (baseWith { initialLaunch with ts := true }) =
        .fault .deviceNotAvailable ∧
      exec (.vpermdVex256 ⟨nulls 11, 0, 1, .reg 2⟩) base = .fault .generalProtection :=
  ⟨rfl, eq_fault (by decide +kernel), eq_fault (by decide +kernel), eq_fault (by decide +kernel)⟩

/-- The control registers as software must set them (R20, R162). -/
def enabledRegs : ControlRegs := ⟨0xC0010020, 0x80000011, 0x40000, 0xE7, 2, 3⟩

theorem witness_NothingExecutesBeforeEnabling :
    ({ enabledRegs with cr4 := 0 } : ControlRegs).cr4 = 0 ∧
      (baseWith (summarise { enabledRegs with cr4 := 0 } initialLaunch)).cfg =
        summarise { enabledRegs with cr4 := 0 } initialLaunch := ⟨rfl, rfl⟩
theorem witness_EnabledRegisterFormsExecute :
    (baseWith (summarise enabledRegs initialLaunch)).cfg = summarise enabledRegs initialLaunch ∧
      sizesSuffice (summarise enabledRegs initialLaunch) = true ∧
      enabledRegs.cpuid7Ebx.getLsbD 5 = true ∧ enabledRegs.cpuid7Ebx.getLsbD 16 = true ∧
      enabledRegs.cpuid7Ebx.getLsbD 30 = true ∧ enabledRegs.cpuid7Ebx.getLsbD 31 = true ∧
      enabledRegs.cr4.getLsbD 18 = true ∧ enabledRegs.xcr0 &&& 0xE6 = 0xE6 ∧
      enabledRegs.cr0.getLsbD 3 = false ∧ vexLegal vexReg = true ∧ isMem vexReg.src2 = false ∧
      evexLegal false evexReg = true ∧ isMem evexReg.src2 = false := by decide

/-- `base` with T1's instruction, then T22's, at `rip`. -/
def program : State :=
  store base base.rip [0xC4#8, 0xE2#8, 0x75#8, 0x36#8, 0xC2#8, 0x62#8, 0x22#8, 0xFD#8, 0x40#8, 0x8D#8, 0xF9#8]

/-- `program` with `codeEnd`. -/
def programTo (a : Word64) : State := launched program { initialLaunch with codeEnd := a }

theorem program_window : ∃ rest, decode program.codeWindow = .ok (.vpermdVex256 ⟨[], 0, 1, .reg 2⟩) rest :=
  ⟨[0x62#8, 0x22#8, 0xFD#8, 0x40#8, 0x8D#8, 0xF9#8], by decide +kernel⟩

theorem witness_StepRunsTheDecodedInstruction :
    program.cfg.mode64 = true ∧ program.rip ≠ program.cfg.codeEnd ∧
      program.placement 5 = none ∧ fetchRun program.cfg 5 program.rip = none ∧
      ∃ rest, decode program.codeWindow = .ok (.vpermdVex256 ⟨[], 0, 1, .reg 2⟩) rest :=
  ⟨by decide +kernel, by decide +kernel, by decide +kernel, by decide +kernel, program_window⟩
theorem witness_StoredEncodingIsExecuted :
    let i : Instr := .vpermdVex256 ⟨[], 0, 1, .reg 2⟩
    i.WellFormed ∧ program.cfg.mode64 = true ∧ program.rip ≠ program.cfg.codeEnd ∧
      (∀ t (h : t < (encode i).length), program.mem.readByte (program.rip.toNat + t) = (encode i)[t]) ∧
      program.rip.toNat + i.length < 2 ^ 64 ∧ allCanonical program.cfg.la57 i.length program.rip = true ∧
      program.rip.toNat + i.length ≤ program.cfg.codeEnd.toNat ∧
      ∀ t, t < i.length → fetchOK program.cfg (program.rip + BitVec.ofNat 64 t) = none := by
  decide +kernel
theorem witness_DeniedFetchFaults :
    let s := launched program { initialLaunch with fetchDenied := [⟨0xFFFFFFF4, 0xFFFFFFFF, .pageFault 21⟩] }
    s.cfg.mode64 = true ∧ s.rip ≠ s.cfg.codeEnd ∧ s.placement 5 = none ∧
      fetchRun s.cfg 5 s.rip = some (.pageFault 21) ∧
      raisesUD s.cfg (.vpermdVex256 ⟨[], 0, 1, .reg 2⟩) = false ∧
      (∃ rest, decode s.codeWindow = .ok (.vpermdVex256 ⟨[], 0, 1, .reg 2⟩) rest) :=
  ⟨rfl, by decide, by decide +kernel, by decide +kernel, by decide, program_window⟩
theorem witness_RefusedSteps :
    (launched program { initialLaunch with mode64 := false }).cfg.mode64 = false ∧
      (programTo 0xFFFFFFF0).rip = (programTo 0xFFFFFFF0).cfg.codeEnd ∧
      decode State.reset.codeWindow = .reject .notVexOrEvex ∧
      2 ^ 64 ≤ (0xFFFFFFFFFFFFFFFB#64).toNat + 5 ∧
      allCanonical false 5 0x7FFFFFFFFFFC#64 = false ∧
      ((programTo 0xFFFFFFF4).rip.toNat < (programTo 0xFFFFFFF4).cfg.codeEnd.toNat ∧
        (programTo 0xFFFFFFF4).cfg.codeEnd.toNat < (programTo 0xFFFFFFF4).rip.toNat + 5) ∧
      ∃ rest, decode (programTo 0xFFFFFFF4).codeWindow = .ok (.vpermdVex256 ⟨[], 0, 1, .reg 2⟩) rest :=
  ⟨rfl, rfl, by decide +kernel, by decide, by decide, by decide +kernel, program_window⟩
theorem witness_CompletedStepAdvancesByTheLength : ∃ t, step program = .next t :=
  exists_next (by decide +kernel)
theorem witness_StepKeepsTheInvariant :
    Inv (programTo 0xFFFFFFF5) ∧ ∃ t, step (programTo 0xFFFFFFF5) = .next t :=
  ⟨⟨by decide +kernel, by decide +kernel, fun _ b hb => BitVec.getLsbD_of_ge _ b hb, by decide +kernel,
      fun _ j hj => BitVec.getLsbD_of_ge _ j hj, by decide +kernel⟩,
    exists_next (by decide +kernel)⟩
theorem witness_RunsChangeOnlyVectorRegistersAndRip :
    ∃ t, Sys2Proof.core.run 2 program = .next t :=
  exists_next (o := Sys2Proof.core.run 2 program) (by decide +kernel)
theorem witness_EveryRunEnds :
    (programTo 0xFFFFFFF5).rip.toNat ≤ (programTo 0xFFFFFFF5).cfg.codeEnd.toNat ∧
      State.reset.rip.toNat ≤ State.reset.cfg.codeEnd.toNat := by decide +kernel
theorem witness_PlacedTableWordIsExecuted :
    base.mem.wf = true ∧ 40 ≤ 120 ∧
      decodeTableWord 40 0x8D40FD2262 =
        some (.vpermwEvex512 ⟨[], 24, 16, .mem (.based 0 .none), 0, false, false⟩) ∧
      base.cfg.mode64 = true ∧ base.rip ≠ base.cfg.codeEnd ∧ base.rip.toNat + 26 ≤ 2 ^ 64 ∧
      base.placement 6 = none ∧ fetchRun base.cfg 6 base.rip = none := by decide +kernel

end Sys2Proof.Tests
end

section
/-!
SUPPORT. The scope and the launch parameters (R5): what `exec` does where no fault applies, whether the
machine has what an instruction names, and that a completed step keeps absent state zero.
-/

namespace Sys2Proof.Machine

open Sys2Proof.Safety

/-! ### A completed step keeps absent state zero (R5, R96, R163) -/

/-- The destination of a completed step has no bit from MAXVL on, whatever the form. -/
theorem Permute.getLsbD_complete_dest_of_maxVl_le (p : Permute) (scale : Nat) (s : State) {b : Nat}
    (hb : s.cfg.maxVl.bits ≤ b) : ((p.complete scale s).readZmm p.dest).getLsbD b = false := by
  simp [Permute.complete, getLsbD_clipZmm, Nat.not_lt.2 hb]

/-- A step with a destination the machine has leaves absent state zero. -/
theorem Permute.absentIsZero_complete {p : Permute} {s : State} (scale : Nat)
    (hd : p.dest.toNat < s.cfg.nvec.val) (h : AbsentIsZero s) :
    AbsentIsZero (p.complete scale s) := by
  obtain ⟨hbits, hregs, hmaskBits, hmasks⟩ := h
  refine ⟨fun r b hb => ?_, fun r hr => ?_, hmaskBits, hmasks⟩
  · by_cases hrd : r = p.dest
    · subst hrd
      exact p.getLsbD_complete_dest_of_maxVl_le scale s hb
    · rw [p.complete_other scale s hrd]
      exact hbits r b hb
  · have hrd : r ≠ p.dest := by
      rintro rfl
      exact absurd hd (Nat.not_lt.2 hr)
    rw [p.complete_other scale s hrd]
    exact hregs r hr

/-- A completed instruction leaves memory and the launch parameters, advances `rip` by the length, and
keeps absent state zero. -/
theorem exec_next_keeps {i : Instr} {s t : State} (h : exec i s = .next t) :
    t.mem = s.mem ∧ t.cfg = s.cfg ∧ t.rip = s.rip + BitVec.ofNat 64 i.length ∧
      (AbsentIsZero s → AbsentIsZero t) := by
  obtain ⟨p, scale, -, hlen, -, -, -, -, -, -, hp, rfl⟩ := exec_eq_next h
  obtain ⟨-, hd, -⟩ := Permute.present_iff.1 hp
  exact ⟨rfl, rfl, by simp [Permute.next, hlen], Permute.absentIsZero_complete scale hd⟩

/-- An instruction placed below CODE_END ends at most there: adding its length does not wrap (R17,
R163). -/
theorem State.toNat_advance_le_codeEnd {s : State} {len : Nat} (hp : s.placement len = none)
    (hne : s.rip ≠ s.cfg.codeEnd) (hle : s.rip.toNat ≤ s.cfg.codeEnd.toNat) :
    (s.rip + BitVec.ofNat 64 len).toNat ≤ s.cfg.codeEnd.toNat := by
  obtain ⟨hwrap, -, hside⟩ := State.placement_eq_none.1 hp
  have hne' : s.rip.toNat ≠ s.cfg.codeEnd.toNat := fun h => hne (BitVec.eq_of_toNat_eq h)
  have hsum : (s.rip + BitVec.ofNat 64 len).toNat = s.rip.toNat + len := by
    rw [BitVec.toNat_add, BitVec.toNat_ofNat, Nat.add_mod_mod, Nat.mod_eq_of_lt hwrap]
  omega

/-! ### What `exec` does where no fault applies (R90, R139, log entry 20) -/

/-- The machine has what a form names exactly where the instruction with the same fields needs no absent
state. -/
theorem Permute.present_iff_not_needsAbsentState {cfg : Launch} {p : Permute} {i : Instr}
    (hvl : p.form.vl = vlOf i) (hkl : p.form.kl = klOf i)
    (hregs : p.dest :: p.src1 :: srcRegs p.src2 = vregsOf i) (hmask : p.aaa = maskOf i) :
    p.present cfg = true ↔ ¬ NeedsAbsentState cfg i := by
  unfold Permute.present NeedsAbsentState
  rw [hvl, hkl, hregs, hmask]
  simp only [Bool.and_eq_true, Bool.or_eq_true, List.all_eq_true, decide_eq_true_eq]
  push Not
  tauto

/-- Every read an instruction makes is admitted (R34, R36, R37). -/
def OperandAdmitted (s : State) (i : Instr) : Prop :=
  ∀ ea n checked, operandRead s i = some (ea, n, checked) → readOk s ea n checked = true

/-- A form's operand has no fault exactly where the read of the instruction, if any, is admitted. -/
theorem Permute.operandFaults_eq_nil_iff_admitted {p : Permute} {scale : Nat} {s : State} {i : Instr}
    (hread : operandRead s i = readVia s p.legacy scale p.len p.bytes p.bcast p.src2) :
    p.operandFaults scale s = [] ↔ OperandAdmitted s i := by
  rw [Permute.operandFaults_eq_nil, OperandAdmitted, hread]
  cases p.src2 with
  | reg r => simp [operandOk, readVia]
  | mem m => simp [operandOk, readVia]

/-- The read of the VEX form is that of the shared step (R32, R60). -/
theorem operandRead_vpermdVex256 (s : State) (ud : Bool) (e : VexFields) :
    operandRead s (.vpermdVex256 e) =
      readVia s e.legacy 1 e.length (ofVex vpermd256 ud e).bytes false (widen e.src2) := by
  simp [operandRead, Permute.bytes, ofVex]

/-- The read of an EVEX form of VPERMD is that of the shared step (R32, R60, R65). -/
theorem vpermdRead_eq_readVia (s : State) (f : Form) (ud : Bool) (e : EvexFields) :
    vpermdRead s (f.vl / 8) e =
      readVia s e.legacy (evexScale f e.b) e.length (ofEvex f ud e).bytes e.b e.src2 := by
  cases hb : e.b <;> simp [vpermdRead, evexScale, Permute.bytes, ofEvex, hb]

/-- The read of a form of VPERMW is that of the shared step where EVEX.b is clear (R32, R60). -/
theorem vpermwRead_eq_readVia (s : State) (f : Form) (ud : Bool) {e : EvexFields} (hb : e.b = false) :
    vpermwRead s (f.vl / 8) e =
      readVia s e.legacy (evexScale f e.b) e.length (ofEvex f ud e).bytes e.b e.src2 := by
  simp [vpermwRead, evexScale, Permute.bytes, ofEvex, hb]

/-- Without a broadcast form an encoding that is not illegal has EVEX.b clear (R65). -/
theorem b_eq_false_of_evexIllegal {e : EvexFields} (h : evexIllegal false e = false) : e.b = false := by
  simp only [evexIllegal, Bool.or_eq_false_iff] at h
  obtain ⟨⟨-, hb⟩, -⟩ := h
  simpa using hb

/-- An instruction with no #UD condition is the shared step of a form that lacks state exactly where the
instruction needs absent state, and whose operand faults exactly where its read is not admitted. -/
theorem exec_eq_run_of_not_raisesUD {i : Instr} {s : State} (hu : raisesUD s.cfg i = false) :
    ∃ (p : Permute) (scale : Nat), exec i s = p.run scale s ∧ p.ud = false ∧ p.len = i.length ∧
      (p.present s.cfg = true ↔ ¬ NeedsAbsentState s.cfg i) ∧
      (p.operandFaults scale s = [] ↔ OperandAdmitted s i) := by
  have hb {features : Bool} {e : EvexFields}
      (h : (evexIllegal false e || !features || !s.cfg.osAvx512Enabled) = false) : e.b = false := by
    simp only [Bool.or_eq_false_iff] at h
    exact b_eq_false_of_evexIllegal h.1.1
  cases i
  case udVpermdVexL0 | udVpermdEvexLL00 | udVpermdEvexLL11 | udVpermwEvexLL11 => cases hu
  all_goals refine ⟨_, _, rfl, hu, rfl, Permute.present_iff_not_needsAbsentState rfl rfl rfl rfl,
    Permute.operandFaults_eq_nil_iff_admitted ?_⟩
  case vpermdVex256 e => exact operandRead_vpermdVex256 s _ e
  case vpermdEvex256 e => exact vpermdRead_eq_readVia s vpermd256 _ e
  case vpermdEvex512 e => exact vpermdRead_eq_readVia s vpermd512 _ e
  case vpermwEvex128 e => exact vpermwRead_eq_readVia s vpermw128 _ (hb hu)
  case vpermwEvex256 e => exact vpermwRead_eq_readVia s vpermw256 _ (hb hu)
  case vpermwEvex512 e => exact vpermwRead_eq_readVia s vpermw512 _ (hb hu)

theorem reachesOperand_iff {s : State} {i : Instr} :
    reachesOperand s i = true ↔ raisesUD s.cfg i = false ∧ i.length ≤ 15 ∧ s.cfg.ts = false := by
  simp [reachesOperand, and_assoc]

/-- Where no fault applies and all it needs is there, an instruction completes (R90). -/
theorem exec_completes {i : Instr} {s : State} (hr : reachesOperand s i = true)
    (ho : OperandAdmitted s i) (hn : ¬ NeedsAbsentState s.cfg i) : ∃ t, exec i s = .next t := by
  obtain ⟨hu, hl, ht⟩ := reachesOperand_iff.1 hr
  obtain ⟨p, scale, hrun, hud, hlen, hpres, hop⟩ := exec_eq_run_of_not_raisesUD hu
  exact ⟨_, hrun.trans (Permute.run_eq_next.2 ⟨hud, hlen ▸ hl, ht, hop.2 ho, hpres.2 hn, rfl⟩)⟩

/-- The shared step is refused exactly where no fault applies and the machine lacks what the form names
(log entry 20). -/
theorem Permute.run_eq_refused {p : Permute} {scale : Nat} {s : State} {r : Refusal} :
    p.run scale s = .refused r ↔
      p.ud = false ∧ p.len ≤ 15 ∧ s.cfg.ts = false ∧ p.operandFaults scale s = [] ∧
        p.present s.cfg = false ∧ r = .absentState := by
  constructor
  · intro h
    obtain ⟨f, -, e⟩ | ⟨-, -, -, e⟩ | ⟨-, -, -, f, -, e⟩ | ⟨hu, hl, ht, ho, hp, e⟩ | ⟨-, -, -, -, -, e⟩ :=
      p.run_cases scale s <;> rw [e] at h <;> cases h
    exact ⟨hu, hl, ht, ho, hp, rfl⟩
  · rintro ⟨hu, hl, ht, ho, hp, rfl⟩
    simp [Permute.run, (decodeFaults_eq_nil _ _).2 ⟨hu, hl⟩, ht, ho, hp, State.report]

/-- Where no fault applies and it needs absent state, an instruction is refused (log entry 20). -/
theorem exec_refused {i : Instr} {s : State} (hr : reachesOperand s i = true)
    (ho : OperandAdmitted s i) (hn : NeedsAbsentState s.cfg i) : exec i s = .refused .absentState := by
  obtain ⟨hu, hl, ht⟩ := reachesOperand_iff.1 hr
  obtain ⟨p, scale, hrun, hud, hlen, hpres, hop⟩ := exec_eq_run_of_not_raisesUD hu
  have hp : p.present s.cfg = false := by simpa [hn] using hpres
  exact hrun.trans (Permute.run_eq_refused.2 ⟨hud, hlen ▸ hl, ht, hop.2 ho, hp, rfl⟩)

/-- An instruction with a #UD condition is not refused (R131, R136). -/
theorem raisesUD_eq_false_of_refused {i : Instr} {s : State} {r : Refusal}
    (h : exec i s = .refused r) : raisesUD s.cfg i = false := by
  obtain ⟨p, scale, hrun, -, -, -, -, hud, -⟩ | ⟨hrun, -⟩ := exec_shape i s
  · rw [hrun] at h
    exact hud ▸ (Permute.run_eq_refused.1 h).1
  · obtain e | ⟨-, e⟩ := runIllegal_cases i.length s <;> rw [hrun, e] at h <;> cases h

/-- The only refusal of an instruction is that it needs absent state (log entry 20). -/
theorem needsAbsentState_of_refused {i : Instr} {s : State} {r : Refusal}
    (h : exec i s = .refused r) : r = .absentState ∧ NeedsAbsentState s.cfg i := by
  obtain ⟨p, scale, hrun, -, -, hpres, -⟩ :=
    exec_eq_run_of_not_raisesUD (raisesUD_eq_false_of_refused h)
  obtain ⟨-, -, -, -, hp, hr⟩ := Permute.run_eq_refused.1 (hrun.symm.trans h)
  exact ⟨hr, by simpa [hp] using hpres⟩

/-! ### R5's sizes hold what the feature flags promise (decisions D2 to D4) -/

/-- On a machine of R5's sizes an instruction whose feature flags are set needs no absent state. -/
theorem not_needsAbsentState_of_sizesSuffice {cfg : Launch} {i : Instr}
    (hs : sizesSuffice cfg = true) (hu : raisesUD cfg i = false) : ¬ NeedsAbsentState cfg i := by
  have hflags {illegal features enabled : Bool} (h : (illegal || !features || !enabled) = false) :
      features = true := by
    simp only [Bool.or_eq_false_iff, Bool.not_eq_false'] at h
    exact h.1.2
  have evex {f : Form} {e : EvexFields} (hvl : f.vl = vlOf i) (hkl : f.kl = klOf i)
      (hregs : e.dest :: e.src1 :: srcRegs e.src2 = vregsOf i) (hmask : e.aaa = maskOf i)
      (hp : (ofEvex f false e).present cfg = true) : ¬ NeedsAbsentState cfg i :=
    (Permute.present_iff_not_needsAbsentState (p := ofEvex f false e) hvl hkl hregs hmask).1 hp
  cases i with
  | vpermdVex256 e =>
    exact (Permute.present_iff_not_needsAbsentState (p := ofVex vpermd256 false e) rfl rfl rfl rfl).1
      (present_ofVex hs (by decide))
  | vpermdEvex256 e =>
    have hf := hflags hu
    rw [Bool.and_eq_true] at hf
    exact evex (f := vpermd256) rfl rfl rfl rfl
      (present_ofEvex hs (.inl hf.1) (by decide) (.inl (by decide)))
  | vpermdEvex512 e =>
    exact evex (f := vpermd512) rfl rfl rfl rfl
      (present_ofEvex hs (.inl (hflags hu)) (by decide) (.inl (by decide)))
  | vpermwEvex128 e =>
    have hf := hflags hu
    rw [Bool.and_eq_true] at hf
    exact evex (f := vpermw128) rfl rfl rfl rfl
      (present_ofEvex hs (.inr (.inl hf.2)) (by decide) (.inl (by decide)))
  | vpermwEvex256 e =>
    have hf := hflags hu
    rw [Bool.and_eq_true] at hf
    exact evex (f := vpermw256) rfl rfl rfl rfl
      (present_ofEvex hs (.inr (.inl hf.2)) (by decide) (.inl (by decide)))
  | vpermwEvex512 e =>
    exact evex (f := vpermw512) rfl rfl rfl rfl
      (present_ofEvex hs (.inr (.inr (hflags hu))) (by decide) (.inr ⟨hflags hu, by decide⟩))
  | udVpermdVexL0 e => cases hu
  | udVpermdEvexLL00 e => cases hu
  | udVpermdEvexLL11 e => cases hu
  | udVpermwEvexLL11 e => cases hu

/-- On a machine of R5's sizes no instruction is refused (R5, R90). -/
theorem exec_ne_refused {i : Instr} {s : State} (hs : sizesSuffice s.cfg = true) (r : Refusal) :
    exec i s ≠ .refused r := fun h =>
  not_needsAbsentState_of_sizesSuffice hs (raisesUD_eq_false_of_refused h)
    (needsAbsentState_of_refused h).2

/-- On a machine of R5's sizes an instruction to which no fault applies completes (R90). -/
theorem exec_completes_of_sizesSuffice {i : Instr} {s : State} (hs : sizesSuffice s.cfg = true)
    (hr : reachesOperand s i = true) (ho : OperandAdmitted s i) : ∃ t, exec i s = .next t :=
  exec_completes hr ho
    (not_needsAbsentState_of_sizesSuffice hs (reachesOperand_iff.1 hr).1)

/-! ### Legal, enabled encodings -/

/-- A legal, enabled VEX form has no fault before its operand's (R51, R71, R132 to R135). -/
theorem reachesOperand_vpermdVex256 {s : State} {e : VexFields} (hen : vexEnabled s.cfg = true)
    (hleg : vexLegal e = true) : reachesOperand s (.vpermdVex256 e) = true := by
  simp only [vexEnabled, vexLegal, Bool.and_eq_true, Bool.not_eq_true', decide_eq_true_eq] at hen hleg
  obtain ⟨⟨havx, hos⟩, hts⟩ := hen
  exact reachesOperand_iff.2 ⟨by simp [raisesUD, udVpermdVex256, hleg.1, havx, hos], hleg.2, hts⟩

/-- SRC2 of the VEX form is admitted where it is a register or can be read. -/
theorem operandAdmitted_vpermdVex256 {s : State} {e : VexFields}
    (h : operandOk s e.legacy 1 e.length 32 false (widen e.src2) = true) :
    OperandAdmitted s (.vpermdVex256 e) :=
  (Permute.operandFaults_eq_nil_iff_admitted (operandRead_vpermdVex256 s false e)).1
    ((Permute.operandFaults_eq_nil (ofVex vpermd256 false e) 1 s).2
      (by simpa [Permute.bytes, ofVex] using h))

/-- With the AVX512 flags clear every instruction but the VEX form has a #UD condition (R131, R132). -/
theorem raisesUD_of_no_avx512 {cfg : Launch} {i : Instr} (hf : cfg.hasAvx512f = false)
    (hbw : cfg.hasAvx512bw = false) (hi : ∀ e, i ≠ .vpermdVex256 e) : raisesUD cfg i = true := by
  cases i with
  | vpermdVex256 e => exact absurd rfl (hi e)
  | vpermdEvex256 e => simp [raisesUD, udVpermdEvex256, hf]
  | vpermdEvex512 e => simp [raisesUD, udVpermdEvex512, hf]
  | vpermwEvex128 e => simp [raisesUD, udVpermwEvex128, hbw]
  | vpermwEvex256 e => simp [raisesUD, udVpermwEvex256, hbw]
  | vpermwEvex512 e => simp [raisesUD, udVpermwEvex512, hbw]
  | udVpermdVexL0 e => rfl
  | udVpermdEvexLL00 e => rfl
  | udVpermdEvexLL11 e => rfl
  | udVpermwEvexLL11 e => rfl

theorem exists_reg_of_isMem_eq_false {w : Nat} {o : RegMem w} (h : isMem o = false) :
    ∃ r, o = .reg r := by
  cases o with
  | reg r => exact ⟨r, rfl⟩
  | mem m => cases h

/-- An instruction without a memory operand makes no read (R32). -/
theorem operandRead_eq_none_of_memOf_eq_none {i : Instr} (s : State) (h : memOf i = none) :
    operandRead s i = none := by
  cases i
  case udVpermdVexL0 | udVpermdEvexLL00 | udVpermdEvexLL11 | udVpermwEvexLL11 => rfl
  all_goals
    rename_i e
    cases hsrc : e.src2 with
    | reg r => simp [operandRead, vpermdRead, vpermwRead, readVia, widen, hsrc]
    | mem m => simp [memOf, hsrc] at h

/-- An instruction without a memory operand has no read that could be denied (R137). -/
theorem operandAdmitted_of_memOf_eq_none {i : Instr} (s : State) (h : memOf i = none) :
    OperandAdmitted s i := by
  simp [OperandAdmitted, operandRead_eq_none_of_memOf_eq_none s h]

/-- A legal EVEX form without broadcast is legal whether or not its row has one (R51, R64, R65, R71). -/
theorem evexIllegal_eq_false_of_evexLegal {e : EvexFields} (hasBroadcast : Bool)
    (h : evexLegal false e = true) : evexIllegal hasBroadcast e = false ∧ e.length ≤ 15 := by
  simp only [evexLegal, Bool.and_eq_true, Bool.or_eq_true, Bool.not_eq_true', Bool.false_and,
    Bool.false_eq_true, or_false, bne_iff_ne, decide_eq_true_eq] at h
  obtain ⟨⟨⟨hleg, hb⟩, hz⟩, hlen⟩ := h
  refine ⟨?_, hlen⟩
  simpa [evexIllegal, hleg, hb, imp_iff_not_or] using hz

/-! ### The launch parameters software must provide (R20, R162) -/

/-- Every feature flag is set, both vector states are enabled, and TS is clear. -/
structure AllEnabled (cfg : Launch) : Prop where
  hasAvx2 : cfg.hasAvx2 = true
  hasAvx512f : cfg.hasAvx512f = true
  hasAvx512vl : cfg.hasAvx512vl = true
  hasAvx512bw : cfg.hasAvx512bw = true
  osAvxEnabled : cfg.osAvxEnabled = true
  osAvx512Enabled : cfg.osAvx512Enabled = true
  ts : cfg.ts = false

/-- A field that a mask covers is all ones where the masked value is the mask. -/
theorem extractLsb'_eq_of_and_eq {n : Nat} {x mask : BitVec n} {start len : Nat}
    (h : x &&& mask = mask) (hm : mask.extractLsb' start len = BitVec.allOnes len) :
    x.extractLsb' start len = BitVec.allOnes len := by
  have := congrArg (BitVec.extractLsb' start len) h
  rwa [BitVec.extractLsb'_and, hm, BitVec.and_allOnes] at this

/-- Control registers set as software must set them enable everything (R20, R162). -/
theorem allEnabled_summarise {c : ControlRegs} (base : Launch)
    (h5 : c.cpuid7Ebx.getLsbD 5 = true) (h16 : c.cpuid7Ebx.getLsbD 16 = true)
    (h30 : c.cpuid7Ebx.getLsbD 30 = true) (h31 : c.cpuid7Ebx.getLsbD 31 = true)
    (hosxsave : c.cr4.getLsbD 18 = true) (hxcr0 : c.xcr0 &&& 0xE6 = 0xE6)
    (hts : c.cr0.getLsbD 3 = false) : AllEnabled (summarise c base) := by
  have hymm : c.xcr0.extractLsb' 1 2 = 3#2 := extractLsb'_eq_of_and_eq hxcr0 (by decide)
  have hzmm : c.xcr0.extractLsb' 5 3 = 7#3 := extractLsb'_eq_of_and_eq hxcr0 (by decide)
  exact ⟨h5, h16, h31, h30, by simp [summarise, hosxsave, hymm],
    by simp [summarise, hosxsave, hymm, hzmm], hts⟩

/-- With everything enabled, on a machine of R5's sizes, an instruction of at most 15 bytes with no #UD
condition and no memory operand completes (R90, R137). -/
theorem AllEnabled.exec_completes {i : Instr} {s : State} (hen : AllEnabled s.cfg)
    (hs : sizesSuffice s.cfg = true) (hu : raisesUD s.cfg i = false) (hl : i.length ≤ 15)
    (hm : memOf i = none) : ∃ t, exec i s = .next t :=
  exec_completes_of_sizesSuffice hs (reachesOperand_iff.2 ⟨hu, hl, hen.ts⟩)
    (operandAdmitted_of_memOf_eq_none s hm)

end Sys2Proof.Machine
end

section
/-!
PROOFS. The statements about the scope and the launch parameters (R5, R20, R130, R162, R163).
-/

namespace Sys2Proof.Proofs

open Sys2Proof.Machine Sys2Proof.Safety

/-- Settles O54: memory and the parameters are constant, `rip` stays within CODE_END by the placement
rule, and a completed instruction writes only a register the machine has, clipped to MAXVL. -/
theorem stepKeepsTheInvariant : Obligations.StepKeepsTheInvariant := by
  rintro s t ⟨hwf, hrip, habsent⟩ hstep
  obtain ⟨i, -, -, hne, -, hplace, -, hexec⟩ := step_eq_next hstep
  obtain ⟨hmem, hcfg, hript, hkeep⟩ := exec_next_keeps hexec
  refine ⟨hmem ▸ hwf, ?_, hkeep habsent⟩
  rw [hcfg, hript]
  exact State.toNat_advance_le_codeEnd hplace hne hrip

/-- Settles O29: a refusal would need absent state, which R5's sizes exclude. -/
theorem executionCompletesOrFaults : Obligations.ExecutionCompletesOrFaults := by
  intro i s hs
  cases h : exec i s with
  | next t => exact .inl ⟨t, rfl⟩
  | fault f => exact .inr ⟨f, rfl⟩
  | refused r => exact absurd h (exec_ne_refused hs r)

/-- Settles O30, from what `exec` does where no fault applies. -/
theorem absentStateIsRefused : Obligations.AbsentStateIsRefused := fun _ _ =>
  ⟨exec_refused, fun _ => needsAbsentState_of_refused⟩

/-- Settles O31: the sizes of a part with AVX2 only are R5's, and a write keeps MAXVL = 256 bits. -/
theorem avx2OnlyPartRunsOnlyTheVexForm : Obligations.Avx2OnlyPartRunsOnlyTheVexForm := by
  intro s hmax hf hvl hbw
  refine ⟨fun i hl hi => exec_of_raisesUD (raisesUD_of_no_avx512 hf hbw hi) hl,
    fun e hn hen hleg hop => ?_⟩
  have hs : sizesSuffice s.cfg = true := by simp [sizesSuffice, hf, hvl, hbw, hn]
  obtain ⟨t, ht⟩ := exec_completes_of_sizesSuffice hs (reachesOperand_vpermdVex256 hen hleg)
    (operandAdmitted_vpermdVex256 hop)
  refine ⟨t, ht, fun habsent r b hb => ?_⟩
  obtain ⟨-, hcfg, -, hkeep⟩ := exec_next_keeps ht
  obtain ⟨hbits, -⟩ := hkeep habsent
  exact hbits r b (by rw [hcfg, hmax]; exact hb)

/-- Settles O48: R162's settings enable everything, so a legal encoding has no #UD condition. -/
theorem enabledRegisterFormsExecute : Obligations.EnabledRegisterFormsExecute := by
  intro v e s c base hcfg hs h5 h16 h30 h31 hosxsave hxcr0 hts
  have hen : AllEnabled s.cfg := hcfg ▸ allEnabled_summarise base h5 h16 h30 h31 hosxsave hxcr0 hts
  constructor
  · intro hleg hreg
    obtain ⟨r, hr⟩ := exists_reg_of_isMem_eq_false hreg
    have hven : vexEnabled s.cfg = true := by
      simp [vexEnabled, hen.hasAvx2, hen.osAvxEnabled, hen.ts]
    obtain ⟨hu, hl, -⟩ := reachesOperand_iff.1 (reachesOperand_vpermdVex256 hven hleg)
    exact hen.exec_completes hs hu hl (by simp [memOf, hr])
  · intro hleg hreg
    obtain ⟨r, hr⟩ := exists_reg_of_isMem_eq_false hreg
    obtain ⟨hd, hl⟩ := evexIllegal_eq_false_of_evexLegal true hleg
    obtain ⟨hw, -⟩ := evexIllegal_eq_false_of_evexLegal false hleg
    have run {i : Instr} (hlen : i.length = e.length) (hm : memOf i = none)
        (hu : raisesUD s.cfg i = false) : ∃ t, exec i s = .next t :=
      hen.exec_completes hs hu (hlen ▸ hl) hm
    obtain ⟨-, hf, hvl, hbw, -, hos, -⟩ := hen
    refine ⟨run rfl (by simp [memOf, hr]) ?_, run rfl (by simp [memOf, hr]) ?_,
      run rfl (by simp [memOf, hr]) ?_, run rfl (by simp [memOf, hr]) ?_,
      run rfl (by simp [memOf, hr]) ?_⟩
    · simp [raisesUD, udVpermdEvex256, hd, hf, hvl, hos]
    · simp [raisesUD, udVpermdEvex512, hd, hf, hos]
    · simp [raisesUD, udVpermwEvex128, hw, hbw, hvl, hos]
    · simp [raisesUD, udVpermwEvex256, hw, hbw, hvl, hos]
    · simp [raisesUD, udVpermwEvex512, hw, hbw, hos]

end Sys2Proof.Proofs
end

section
/-!
SUPPORT. The decoder reads back what the encoder writes (R50 to R66, R69): the bit fields of each byte
layout, SRC2 with its addressing forms, the fields of a VEX and an EVEX form, and the instruction.
-/

namespace Sys2Proof

/-! ### The bit fields of the byte layouts (R52, R54, R56, R57) -/

/-- The fields of ModRM (R56). -/
theorem modrm_fields (mod : BitVec 2) (reg rm : BitVec 3) :
    (mod ++ reg ++ rm : Byte).extractLsb' 6 2 = mod ∧
      (mod ++ reg ++ rm : Byte).extractLsb' 3 3 = reg ∧
      (mod ++ reg ++ rm : Byte).extractLsb' 0 3 = rm := by
  revert mod reg rm
  decide

/-- The fields of a SIB byte (R57). -/
theorem sib_fields (high : BitVec 5) (base : BitVec 3) :
    (high ++ base : Byte).extractLsb' 6 2 = high.extractLsb' 3 2 ∧
      (high ++ base : Byte).extractLsb' 3 3 = high.extractLsb' 0 3 ∧
      (high ++ base : Byte).extractLsb' 0 3 = base := by
  revert high base
  decide

/-- The fields of P1 of the VEX bytes (R52). -/
theorem vexP1_fields (r x b : BitVec 1) (mmmmm : BitVec 5) :
    (r ++ x ++ b ++ mmmmm : Byte).extractLsb' 7 1 = r ∧
      (r ++ x ++ b ++ mmmmm : Byte).extractLsb' 6 1 = x ∧
      (r ++ x ++ b ++ mmmmm : Byte).extractLsb' 5 1 = b ∧
      (r ++ x ++ b ++ mmmmm : Byte).extractLsb' 0 5 = mmmmm := by
  revert r x b mmmmm
  decide

/-- The fields of P2 of the VEX bytes and of P1 of the EVEX bytes (R52, R54). -/
theorem wvvvv_fields (w : BitVec 1) (vvvv : BitVec 4) (l : BitVec 1) (pp : BitVec 2) :
    (w ++ vvvv ++ l ++ pp : Byte).extractLsb' 7 1 = w ∧
      (w ++ vvvv ++ l ++ pp : Byte).extractLsb' 3 4 = vvvv ∧
      (w ++ vvvv ++ l ++ pp : Byte).extractLsb' 2 1 = l ∧
      (w ++ vvvv ++ l ++ pp : Byte).extractLsb' 0 2 = pp := by
  revert w vvvv l pp
  decide

/-- The fields of P0 of the EVEX bytes (R54). -/
theorem evexP0_fields (r x b r' : BitVec 1) (mmmm : BitVec 4) :
    (r ++ x ++ b ++ r' ++ mmmm : Byte).extractLsb' 7 1 = r ∧
      (r ++ x ++ b ++ r' ++ mmmm : Byte).extractLsb' 6 1 = x ∧
      (r ++ x ++ b ++ r' ++ mmmm : Byte).extractLsb' 5 1 = b ∧
      (r ++ x ++ b ++ r' ++ mmmm : Byte).extractLsb' 4 1 = r' ∧
      (r ++ x ++ b ++ r' ++ mmmm : Byte).extractLsb' 0 4 = mmmm := by
  revert r x b r' mmmm
  decide

/-- The fields of P2 of the EVEX bytes (R54). -/
theorem evexP2_fields (z : BitVec 1) (ll : BitVec 2) (b v' : BitVec 1) (aaa : BitVec 3) :
    (z ++ ll ++ b ++ v' ++ aaa : Byte).extractLsb' 7 1 = z ∧
      (z ++ ll ++ b ++ v' ++ aaa : Byte).extractLsb' 5 2 = ll ∧
      (z ++ ll ++ b ++ v' ++ aaa : Byte).extractLsb' 4 1 = b ∧
      (z ++ ll ++ b ++ v' ++ aaa : Byte).extractLsb' 3 1 = v' ∧
      (z ++ ll ++ b ++ v' ++ aaa : Byte).extractLsb' 0 3 = aaa := by
  revert z ll b v' aaa
  decide

/-- A register number of four bits from its R, X or B bit and its low bits (R57, R59, R61). -/
theorem append_extractLsb'_of_four (r : BitVec 4) : r.extractLsb' 3 1 ++ r.extractLsb' 0 3 = r := by
  revert r
  decide

/-- A register number of four bits from the fields the encoder takes of it (R61). -/
theorem append_extractLsb'_setWidth_of_four (r : BitVec 4) :
    (r.setWidth 5).extractLsb' 3 1 ++ (r.setWidth 5).extractLsb' 0 3 = r := by
  revert r
  decide

/-- A register number of five bits from its X and B bits and its low bits (R62). -/
theorem append_extractLsb'_of_five (r : BitVec 5) :
    r.extractLsb' 4 1 ++ r.extractLsb' 3 1 ++ r.extractLsb' 0 3 = r := by
  revert r
  decide

/-- A register number of five bits from its highest bit and its four low bits (R62). -/
theorem append_extractLsb'_four_of_five (r : BitVec 5) : r.extractLsb' 4 1 ++ r.extractLsb' 0 4 = r := by
  revert r
  decide

/-! ### SRC2 (R56 to R58) -/

/-- The index register is read back from its X bit and the SIB byte (R57). -/
theorem decodeIndex_sibHigh {index : Option SibIndex} (h : SibIndex.optWf index = true)
    (base : BitVec 3) : decodeIndex (indexX index) (sibHigh index ++ base) = index := by
  cases index with
  | none => simp [decodeIndex, indexX, sibHigh, sib_fields]
  | some x =>
    have hne : x.reg ≠ 4#4 := by simpa [SibIndex.optWf, SibIndex.wf] using h
    have hscale : (x.scale ++ x.reg.extractLsb' 0 3 : BitVec 5).extractLsb' 3 2 = x.scale := by
      rw [BitVec.extractLsb'_append_eq_of_le (by decide), BitVec.extractLsb'_eq_self]
    have hreg : (x.scale ++ x.reg.extractLsb' 0 3 : BitVec 5).extractLsb' 0 3 =
        x.reg.extractLsb' 0 3 := by
      rw [BitVec.extractLsb'_append_eq_of_add_le (by decide), BitVec.extractLsb'_eq_self]
    simp [decodeIndex, indexX, sibHigh, sib_fields, hscale, hreg, append_extractLsb'_of_four, hne]

/-- With no displacement the low bits of a base register are not 101b (R57, R58). -/
theorem extractLsb'_base_ne_five {d : Disp} {base : BitVec 4} (h : d.wfWithBase base = true)
    (hd : d = .none) : base.extractLsb' 0 3 ≠ 5#3 := by
  subst hd
  simpa [Disp.wfWithBase] using h

/-- A well-formed memory operand is read back from its parts (R57, R58). -/
theorem decodeMem_parts {m : MemOperand} (h : m.wf = true) (rest : List Byte) :
    decodeMem m.parts.1 m.parts.2.1 m.xb.1 m.xb.2 (m.parts.2.2 ++ rest) = some (m, rest) := by
  cases m with
  | ripRel d => simp [decodeMem, MemOperand.parts]
  | based base d =>
    simp only [MemOperand.wf, Bool.and_eq_true, bne_iff_ne] at h
    obtain ⟨hsib, hd⟩ := h
    simpa [decodeMem, MemOperand.parts, MemOperand.xb, hsib, append_extractLsb'_of_four]
      using extractLsb'_base_ne_five hd
  | sib base index d =>
    simp only [MemOperand.wf, Bool.and_eq_true] at h
    obtain ⟨hi, hd⟩ := h
    simpa [decodeMem, MemOperand.parts, MemOperand.xb, sib_fields, append_extractLsb'_of_four,
      decodeIndex_sibHigh hi] using extractLsb'_base_ne_five hd
  | sibNoBase index d =>
    simp [decodeMem, MemOperand.parts, MemOperand.xb, sib_fields, decodeIndex_sibHigh h]

/-- `mod` of a memory operand is not 11b, which says a register (R56). -/
theorem MemOperand.mod_ne_three (m : MemOperand) : m.parts.1 ≠ 3#2 := by
  cases m <;> simp [MemOperand.parts]

/-- SRC2 is read back from ModRM and the bytes after it, where `regNo` gives a register's number from
the `rm` bits (R56). -/
theorem decodeRegMem_bytes {w : Nat} {o : RegMem w} (h : o.wf = true) (reg : BitVec 3)
    (regNo : BitVec 3 → BitVec w)
    (hreg : ∀ r, o = .reg r → regNo ((r.setWidth 5).extractLsb' 0 3) = r) (rest : List Byte) :
    ∃ modrm tail, o.bytes reg = modrm :: tail ∧ modrm.extractLsb' 3 3 = reg ∧
      decodeRegMem modrm o.xb.1 o.xb.2 (regNo (modrm.extractLsb' 0 3)) (tail ++ rest) =
        some (o, rest) := by
  cases o with
  | reg r =>
    exact ⟨_, _, rfl, (modrm_fields _ _ _).2.1, by simp [decodeRegMem, modrm_fields, hreg r rfl]⟩
  | mem m =>
    refine ⟨_, _, rfl, (modrm_fields _ _ _).2.1, ?_⟩
    have hm : decodeMem m.parts.1 m.parts.2.1 m.xb.1 m.xb.2 (m.parts.2.2 ++ rest) = some (m, rest) :=
      decodeMem_parts h rest
    simp [decodeRegMem, RegMem.xb, modrm_fields, m.mod_ne_three, hm]

/-! ### The VEX and EVEX forms -/

/-- A VEX form is read back from the bytes after its legacy prefixes (R52, R61). -/
theorem decode_encodeVex {e : VexFields} (h : e.src2.wf = true) (l : BitVec 1) (rest : List Byte) :
    decode (encodeVex l e ++ rest) = .ok (vexRow l e) rest := by
  obtain ⟨modrm, tail, hbytes, hreg, hsrc⟩ := decodeRegMem_bytes h (e.dest.extractLsb' 0 3)
    (e.src2.xb.2 ++ ·) (fun r hr => by simp [hr, RegMem.xb, append_extractLsb'_setWidth_of_four]) rest
  simp only [encodeVex, hbytes, List.append_assoc, List.cons_append, List.nil_append]
  rw [decode_append _ _ _ (by decide)]
  simp [decodeBody, decodeVex, isVexPattern, decodeVexFields, vexP1_fields, wvvvv_fields, hreg, hsrc,
    append_extractLsb'_of_four]

/-- The fields of an EVEX form are read back from P0, P1, P2 and the bytes after the opcode (R54, R62,
R64, R65). -/
theorem decodeEvexFields_bytes {e : EvexFields} (h : e.src2.wf = true) (w : BitVec 1) (ll : BitVec 2)
    (rest : List Byte) :
    decodeEvexFields e.legacy
      (~~~(e.dest.extractLsb' 3 1) ++ ~~~e.src2.xb.1 ++ ~~~e.src2.xb.2 ++
        ~~~(e.dest.extractLsb' 4 1) ++ 2#4)
      (w ++ ~~~(e.src1.extractLsb' 0 4) ++ 1#1 ++ 1#2)
      (BitVec.ofBool e.z ++ ll ++ BitVec.ofBool e.b ++ ~~~(e.src1.extractLsb' 4 1) ++ e.aaa)
      (e.src2.bytes (e.dest.extractLsb' 0 3) ++ rest) = some (e, rest) := by
  obtain ⟨modrm, tail, hbytes, hreg, hsrc⟩ := decodeRegMem_bytes h (e.dest.extractLsb' 0 3)
    (e.src2.xb.1 ++ e.src2.xb.2 ++ ·)
    (fun r hr => by simp [hr, RegMem.xb, append_extractLsb'_of_five]) rest
  have hbit : ∀ c : Bool, decide (BitVec.ofBool c = 1#1) = c := by decide
  simp [hbytes, decodeEvexFields, evexP0_fields, wvvvv_fields, evexP2_fields, hreg, hsrc, hbit,
    append_extractLsb'_of_five, append_extractLsb'_four_of_five]

/-- An EVEX form of VPERMD is read back (R54, R63, R66). -/
theorem decode_encodeEvex_vpermd {e : EvexFields} (h : e.src2.wf = true) (ll : BitVec 2)
    (rest : List Byte) :
    decode (encodeEvex 0#1 ll 0x36#8 e ++ rest) = .ok (evexVpermdRow ll e) rest := by
  simp only [encodeEvex, List.append_assoc, List.cons_append, List.nil_append]
  rw [decode_append _ _ _ (by decide)]
  simp [decodeBody, decodeEvex, isEvexPattern, evexP0_fields, wvvvv_fields, evexP2_fields,
    decodeEvexFields_bytes h]

/-- An EVEX form of VPERMW is read back (R54, R63, R66). -/
theorem decode_encodeEvex_vpermw {e : EvexFields} (h : e.src2.wf = true) (ll : BitVec 2)
    (rest : List Byte) :
    decode (encodeEvex 1#1 ll 0x8D#8 e ++ rest) = .ok (evexVpermwRow ll e) rest := by
  simp only [encodeEvex, List.append_assoc, List.cons_append, List.nil_append]
  rw [decode_append _ _ _ (by decide)]
  simp [decodeBody, decodeEvex, isEvexPattern, evexP0_fields, wvvvv_fields, evexP2_fields,
    decodeEvexFields_bytes h]

/-- Decoding the encoding of a well-formed instruction gives it back, with the bytes after it (R69). -/
theorem decode_encode_append {i : Instr} (h : i.WellFormed) (rest : List Byte) :
    decode (encode i ++ rest) = .ok i rest := by
  cases i with
  | vpermdVex256 e => exact decode_encodeVex h 1#1 rest
  | vpermdEvex256 e => exact decode_encodeEvex_vpermd h 1#2 rest
  | vpermdEvex512 e => exact decode_encodeEvex_vpermd h 2#2 rest
  | vpermwEvex128 e => exact decode_encodeEvex_vpermw h 0#2 rest
  | vpermwEvex256 e => exact decode_encodeEvex_vpermw h 1#2 rest
  | vpermwEvex512 e => exact decode_encodeEvex_vpermw h 2#2 rest
  | udVpermdVexL0 e => exact decode_encodeVex h 0#1 rest
  | udVpermdEvexLL00 e => exact decode_encodeEvex_vpermd h 0#2 rest
  | udVpermdEvexLL11 e => exact decode_encodeEvex_vpermd h 3#2 rest
  | udVpermwEvexLL11 e => exact decode_encodeEvex_vpermw h 3#2 rest

end Sys2Proof
end

section
/-!
SUPPORT. The step (R17, R47, R69, R90): where the platform admits a fetch, which bytes the decoder is
given, and the arithmetic of the instruction pointer.
-/

namespace Sys2Proof.Machine

open Sys2Proof.Safety

/-! ### Lengths (R50, R71) -/

/-- The encoder writes as many bytes as the instruction's length (R71). -/
theorem length_encode (i : Instr) : (encode i).length = i.length := by
  cases i
  case vpermdVex256 | udVpermdVexL0 => exact length_encodeVex _ _
  all_goals exact length_encodeEvex _ _ _ _

/-- SRC2 has at most five bytes after ModRM (R57, R58). -/
theorem length_regMem_le {w : Nat} (o : RegMem w) : o.length ≤ 5 := by
  have hdisp (d : Disp) : d.length ≤ 4 := by cases d <;> simp [Disp.length]
  cases o with
  | reg r => simp [RegMem.length]
  | mem m =>
    cases m with
    | ripRel d => simp [RegMem.length, MemOperand.length]
    | based base d => exact (hdisp d).trans (by decide)
    | sib base index d => exact Nat.add_le_add_left (hdisp d) 1
    | sibNoBase index d => simp [RegMem.length, MemOperand.length]

/-- An instruction has at most eleven bytes after its legacy prefixes (R50). -/
theorem length_le_legacyOf (i : Instr) : i.length ≤ (legacyOf i).length + maxBody := by
  cases i
  all_goals
    rename_i e
    have := length_regMem_le e.src2
    simp only [Instr.length, VexFields.length, EvexFields.length, legacyOf, maxBody]
    omega

/-- The encoding begins with the bytes of the legacy prefixes (R51). -/
theorem legacyOf_prefix_encode (i : Instr) : (legacyOf i).map LegacyPrefix.toByte <+: encode i := by
  cases i
  all_goals exact ⟨_, (List.append_assoc _ _ _).symm⟩

/-! ### The bytes the decoder is given (R47, R69) -/

/-- Bytes that stand in memory from `a` on begin what is read there. -/
theorem Memory.prefix_bytesFrom {m : Memory} {a n : Nat} {bytes : List Byte}
    (h : ∀ t (ht : t < bytes.length), m.readByte (a + t) = bytes[t]) (hn : bytes.length ≤ n) :
    bytes <+: m.bytesFrom n a := by
  rw [List.prefix_iff_getElem?]
  intro t ht
  rw [m.getElem?_bytesFrom a (by omega), h t ht]

/-- Legacy prefixes that stand in memory are counted (R51, R69 step 1). -/
theorem le_prefixRun {m : Memory} {n fuel a : Nat} (hn : n ≤ fuel)
    (h : ∀ t < n, (LegacyPrefix.ofByte (m.readByte (a + t))).isSome = true) :
    n ≤ prefixRun m fuel a := by
  induction n generalizing fuel a with
  | zero => exact Nat.zero_le _
  | succ n ih =>
    obtain ⟨fuel, rfl⟩ := Nat.exists_eq_succ_of_ne_zero (show fuel ≠ 0 by omega)
    have htail : n ≤ prefixRun m fuel (a + 1) :=
      ih (by omega) fun t ht => by
        rw [Nat.add_assoc, Nat.add_comm 1]
        exact h (t + 1) (by omega)
    simpa [prefixRun, show (LegacyPrefix.ofByte (m.readByte a)).isSome = true from h 0 (by omega)]
      using htail

/-- The encoding of an instruction that stands at `rip`, below the top of the address space, begins the
bytes the decoder is given. -/
theorem State.encode_prefix_codeWindow {s : State} {i : Instr}
    (h : ∀ t (ht : t < (encode i).length), s.mem.readByte (s.rip.toNat + t) = (encode i)[t])
    (htop : s.rip.toNat + i.length < 2 ^ 64) : encode i <+: s.codeWindow := by
  have hlegacy : (legacyOf i).length ≤
      prefixRun s.mem (addressSpace - s.rip.toNat) s.rip.toNat := by
    have hle : (legacyOf i).length ≤ i.length := by
      simpa [length_encode] using (legacyOf_prefix_encode i).length_le
    refine le_prefixRun (by unfold addressSpace; omega) fun t ht => ?_
    have hbyte : (encode i)[t]'(by rw [length_encode]; omega) = ((legacyOf i)[t]).toByte := by
      rw [← (legacyOf_prefix_encode i).getElem (by simpa using ht), List.getElem_map]
    rw [h t (by rw [length_encode]; omega), hbyte, LegacyPrefix.ofByte_toByte]
    rfl
  refine Memory.prefix_bytesFrom h ?_
  have := length_le_legacyOf i
  rw [length_encode]
  unfold addressSpace at *
  omega

/-- A well-formed instruction whose encoding stands at `rip` is the one decoded there (R69). -/
theorem State.decode_codeWindow_of_stored {s : State} {i : Instr} (hwf : i.WellFormed)
    (h : ∀ t (ht : t < (encode i).length), s.mem.readByte (s.rip.toNat + t) = (encode i)[t])
    (htop : s.rip.toNat + i.length < 2 ^ 64) : ∃ rest, decode s.codeWindow = .ok i rest := by
  obtain ⟨rest, hrest⟩ := State.encode_prefix_codeWindow h htop
  exact ⟨rest, hrest ▸ decode_encode_append hwf rest⟩

/-- No byte is denied where the platform admits every one (R47). -/
theorem fetchRun_eq_none {cfg : Launch} {n : Nat} {a : Word64}
    (h : ∀ t < n, fetchOK cfg (a + BitVec.ofNat 64 t) = none) : fetchRun cfg n a = none := by
  induction n generalizing a with
  | zero => rfl
  | succ n ih =>
    have hhead : fetchOK cfg a = none := by simpa using h 0 (by omega)
    have htail : fetchRun cfg n (a + 1#64) = none := ih fun t ht => by
      rw [BitVec.add_assoc, ← BitVec.ofNat_add, Nat.add_comm]
      exact h (t + 1) (by omega)
    simp [fetchRun, hhead, htail]

/-! ### The outcomes of a step (R90) -/

/-- Outside 64-bit mode a step is refused (R73). -/
theorem step_of_not_mode64 {s : State} (h : s.cfg.mode64 = false) : step s = .refused .notMode64 := by
  simp [step, State.fetch, h]

section InMode64

variable {s : State} (hmode : s.cfg.mode64 = true)

include hmode

/-- A step at CODE_END is refused: the run has ended (R163). -/
theorem step_of_rip_eq_codeEnd (h : s.rip = s.cfg.codeEnd) : step s = .refused .endOfRun := by
  simp [step, State.fetch, hmode, h]

variable (hne : s.rip ≠ s.cfg.codeEnd)

include hne

/-- A step at bytes out of scope is refused (R72). -/
theorem step_of_reject {why : DecodeReject} (h : decode s.codeWindow = .reject why) :
    step s = .refused (.outOfScope why) := by
  simp [step, State.fetch, hmode, hne, h]

variable {i : Instr} {rest : List Byte} (hdec : decode s.codeWindow = .ok i rest)

include hdec

/-- A step at an instruction that may not stand at `rip` is refused (R17, R163). -/
theorem step_of_placement_eq_some {r : Refusal} (h : s.placement i.length = some r) :
    step s = .refused r := by
  simp [step, State.fetch, hmode, hne, hdec, h]

/-- A step at an instruction that may stand at `rip` and be fetched executes it (R90). -/
theorem step_eq_exec (hp : s.placement i.length = none)
    (hf : fetchRun s.cfg i.length s.rip = none) : step s = exec i s := by
  simp [step, State.fetch, State.fetchChecked, hmode, hne, hdec, hp, hf]

end InMode64

/-- An instruction that may stand at `rip` advances it without wrapping (R17). -/
theorem State.toNat_advance {s : State} {len : Nat} (h : s.placement len = none) :
    (s.rip + BitVec.ofNat 64 len).toNat = s.rip.toNat + len := by
  obtain ⟨htop, -⟩ := State.placement_eq_none.1 h
  rw [BitVec.toNat_add, BitVec.toNat_ofNat, Nat.add_mod_mod, Nat.mod_eq_of_lt htop]

end Sys2Proof.Machine
end

section
/-!
SUPPORT. The effective address over the integers (R57 to R59): each term of the model's sum is the
integer term reduced modulo 2^64.
-/

namespace Sys2Proof.Machine

open Sys2Proof.Safety

/-- 67h is present exactly where it is among the legacy prefixes (R51). -/
theorem addrSize32_iff {legacy : List LegacyPrefix} :
    addrSize32 legacy = true ↔ LegacyPrefix.addr32 ∈ legacy := by
  simp [addrSize32]

/-- A bit vector's number, reduced, is the bit vector. -/
theorem ofInt_toNat {w : Nat} (x : BitVec w) : BitVec.ofInt w (x.toNat : Int) = x := by
  rw [BitVec.ofInt_natCast, BitVec.ofNat_toNat, BitVec.setWidth_eq]

/-- The displacement is the integer one, reduced (R58, R60). -/
theorem dispValue_eq_ofInt (scale : Nat) (d : Disp) :
    dispValue scale d = BitVec.ofInt 64 (dispInt scale d) := by
  cases d with
  | none => rfl
  | d8 d => rw [dispInt, BitVec.ofInt_mul, BitVec.ofInt_natCast]; rfl
  | d32 d => rfl

/-- The index term is the integer one, reduced (R57, R59). -/
theorem State.indexValue_eq_ofInt (s : State) (index : Option SibIndex) :
    s.indexValue index = BitVec.ofInt 64 (indexInt s index) := by
  cases index with
  | none => rfl
  | some x =>
    have hnat : indexInt s (some x) = (((s.readGpr x.reg).toNat * 2 ^ x.scale.toNat : Nat) : Int) := by
      simp [indexInt]
    apply BitVec.eq_of_toNat_eq
    rw [hnat, BitVec.ofInt_natCast, BitVec.toNat_ofNat, State.indexValue, BitVec.toNat_shiftLeft,
      Nat.shiftLeft_eq]

/-- The sum of an addressing form is R59's, reduced modulo 2^64. -/
theorem State.offset_eq_ofInt (s : State) (scale : Nat) (next : Word64) (m : MemOperand) :
    s.offset scale next m = BitVec.ofInt 64 (addrSum s scale next m) := by
  cases m with
  | ripRel d => simp only [State.offset, addrSum, BitVec.ofInt_add, ofInt_toNat]; rfl
  | based base d =>
    simp only [State.offset, addrSum, BitVec.ofInt_add, ofInt_toNat, dispValue_eq_ofInt]
  | sib base index d =>
    simp only [State.offset, addrSum, BitVec.ofInt_add, ofInt_toNat, dispValue_eq_ofInt,
      State.indexValue_eq_ofInt]
  | sibNoBase index d =>
    simp only [State.offset, addrSum, BitVec.ofInt_add, State.indexValue_eq_ofInt]; rfl

/-- An integer reduced modulo 2^64, as a number. -/
theorem toNat_ofInt_cast (x : Int) : ((BitVec.ofInt 64 x).toNat : Int) = x % 2 ^ 64 := by
  rw [BitVec.toNat_ofInt]
  omega

/-- An integer reduced modulo 2^64 and then to its 32 low bits is reduced modulo 2^32. -/
theorem toNat_setWidth_ofInt_cast (x : Int) :
    ((((BitVec.ofInt 64 x).setWidth 32).setWidth 64).toNat : Int) = x % 2 ^ 32 := by
  have := toNat_ofInt_cast x
  simp only [BitVec.toNat_setWidth]
  omega

end Sys2Proof.Machine
end

section
/-!
SUPPORT. What a completed instruction and a run leave as they were (R26, R97), the enabling an
instruction needs (R20, R134), and what of the state it reads (R14, R15, R98).
-/

namespace Sys2Proof.Machine

open Sys2Proof.Safety

/-! ### What is left as it was (R26, R97) -/

/-- A completed form changes its destination and `rip` and nothing else (R26, R97). -/
theorem Permute.frame_complete (p : Permute) (scale : Nat) (s : State) :
    Frame s (p.complete scale s) p.dest :=
  ⟨fun _ h => p.complete_other scale s h, fun _ => rfl, fun _ => rfl, fun _ => rfl, rfl, rfl⟩

/-- What a completed step never changes is as in `s` (R12, R26). -/
def SameConstants (s t : State) : Prop := t.mem = s.mem ∧ t.k = s.k ∧ t.gpr = s.gpr ∧ t.cfg = s.cfg

theorem SameConstants.refl (s : State) : SameConstants s s := ⟨rfl, rfl, rfl, rfl⟩

theorem SameConstants.trans {s t u : State} (h : SameConstants s t) (h' : SameConstants t u) :
    SameConstants s u := by
  obtain ⟨hmem, hk, hgpr, hcfg⟩ := h
  obtain ⟨hmem', hk', hgpr', hcfg'⟩ := h'
  exact ⟨hmem'.trans hmem, hk'.trans hk, hgpr'.trans hgpr, hcfg'.trans hcfg⟩

/-- A completed step keeps memory, the opmask and general registers and the parameters (R26). -/
theorem step_sameConstants {s t : State} (h : step s = .next t) : SameConstants s t := by
  obtain ⟨i, -, -, -, -, -, -, hexec⟩ := step_eq_next h
  obtain ⟨p, scale, -, -, -, -, -, -, -, -, -, rfl⟩ := exec_eq_next hexec
  exact ⟨rfl, rfl, rfl, rfl⟩

/-- What every completed step keeps holds at the end of every run that completes. -/
theorem run_keeps {P : State → Prop} (hstep : ∀ s t, P s → step s = .next t → P t) {n : Nat}
    {s t : State} (hs : P s) (h : Sys2Proof.core.run n s = .next t) : P t := by
  induction n generalizing s with
  | zero =>
    cases h
    exact hs
  | succ n ih =>
    obtain ⟨u, hsu, hrun⟩ := run_succ_eq_next h
    exact ih (hstep s u hs hsu) hrun

/-! ### The enabling (R20, R134) -/

/-- Without the operating system's enabling every instruction has a #UD condition (R134). -/
theorem raisesUD_of_not_enabled {cfg : Launch} (havx : cfg.osAvxEnabled = false)
    (havx512 : cfg.osAvx512Enabled = false) (i : Instr) : raisesUD cfg i = true := by
  cases i with
  | vpermdVex256 e => simp [raisesUD, udVpermdVex256, havx]
  | vpermdEvex256 e => simp [raisesUD, udVpermdEvex256, havx512]
  | vpermdEvex512 e => simp [raisesUD, udVpermdEvex512, havx512]
  | vpermwEvex128 e => simp [raisesUD, udVpermwEvex128, havx512]
  | vpermwEvex256 e => simp [raisesUD, udVpermwEvex256, havx512]
  | vpermwEvex512 e => simp [raisesUD, udVpermwEvex512, havx512]
  | udVpermdVexL0 e => rfl
  | udVpermdEvexLL00 e => rfl
  | udVpermdEvexLL11 e => rfl
  | udVpermwEvexLL11 e => rfl

/-- With CR4 zero neither vector state is enabled (R20). -/
theorem summarise_of_cr4_eq_zero {c : ControlRegs} (base : Launch) (h : c.cr4 = 0) :
    (summarise c base).osAvxEnabled = false ∧ (summarise c base).osAvx512Enabled = false := by
  simp [summarise, h]

/-! ### States that agree below the vector length (R14, R15) -/

/-- The reported fault depends on `rip` and `draw` alone of the state (R139). -/
theorem State.report_congr {s s' : State} (hrip : s'.rip = s.rip) (hdraw : s'.draw = s.draw)
    (fs : List Fault) : s'.report fs = s.report fs := by
  match fs with
  | [] => rfl
  | [_] => rfl
  | _ :: _ :: _ => simp only [State.report, hrip, hdraw]

/-- The effective address depends on the general registers and the parameters alone (R59). -/
theorem State.effAddr_congr {s s' : State} (hgpr : s'.gpr = s.gpr) (hcfg : s'.cfg = s.cfg)
    (legacy : List LegacyPrefix) (scale : Nat) (next : Word64) (m : MemOperand) :
    s'.effAddr legacy scale next m = s.effAddr legacy scale next m := by
  have hread (g : BitVec 4) : s'.readGpr g = s.readGpr g := by simp only [State.readGpr, hgpr]
  have hindex (index : Option SibIndex) : s'.indexValue index = s.indexValue index := by
    cases index with
    | none => rfl
    | some x => simp only [State.indexValue, hread]
  cases m <;> simp only [State.effAddr, State.offset, hread, hindex, hcfg]

section Agree

variable {p : Permute} {s s' : State} (h : AgreeBelow p.form.vl p.form.kl s s') (scale : Nat)

include h

/-- The next instruction is at the same address (R17). -/
theorem Permute.next_of_agreeBelow : p.next s' = p.next s := by
  obtain ⟨-, -, -, hrip, -⟩ := h
  simp only [Permute.next, hrip]

/-- The operand has the same faults (R137). -/
theorem Permute.operandFaults_of_agreeBelow : p.operandFaults scale s' = p.operandFaults scale s := by
  have hnext := Permute.next_of_agreeBelow h
  obtain ⟨-, -, hgpr, -, -, hcfg, -⟩ := h
  cases hsrc : p.src2 with
  | reg r => simp only [Permute.operandFaults, hsrc]
  | mem m =>
    simp only [Permute.operandFaults, hsrc, State.readFaults, hnext, State.effAddr_congr hgpr hcfg, hcfg]

/-- SRC2 is the same vector (R92). -/
theorem Permute.data_of_agreeBelow : p.data scale s' = p.data scale s := by
  have hnext := Permute.next_of_agreeBelow h
  obtain ⟨hzmm, -, hgpr, -, hmem, hcfg, -⟩ := h
  cases hsrc : p.src2 with
  | reg r => simp only [Permute.data, hsrc, hzmm]
  | mem m => simp only [Permute.data, hsrc, hnext, hmem, State.effAddr_congr hgpr hcfg]

/-- The elements that exist are selected alike (R94). -/
theorem Permute.selected_of_agreeBelow {j : Nat} (hj : j < p.form.kl) :
    s'.selected p.aaa j = s.selected p.aaa j := by
  obtain ⟨-, hmask, -⟩ := h
  simp only [State.selected, hmask p.aaa j hj]

/-- The completed states have the same destination and `rip` (R95, R98). -/
theorem Permute.complete_of_agreeBelow :
    (p.complete scale s').readZmm p.dest = (p.complete scale s).readZmm p.dest ∧
      (p.complete scale s').rip = (p.complete scale s).rip := by
  have hresult : p.form.result ((s'.readZmm p.src1).setWidth p.form.vl) (p.data scale s')
      ((s'.readZmm p.dest).setWidth p.form.vl) (s'.selected p.aaa) p.z =
      p.form.result ((s.readZmm p.src1).setWidth p.form.vl) (p.data scale s)
      ((s.readZmm p.dest).setWidth p.form.vl) (s.selected p.aaa) p.z := by
    refine eq_of_elem_eq fun j hj => ?_
    have hzmm := h.1
    rw [p.form.elem_result _ _ _ _ _ hj, p.form.elem_result _ _ _ _ _ hj,
      Permute.selected_of_agreeBelow h hj, Permute.data_of_agreeBelow h, hzmm, hzmm]
  refine ⟨?_, Permute.next_of_agreeBelow h⟩
  obtain ⟨-, -, -, -, -, hcfg, -⟩ := h
  simp [Permute.complete, hresult, hcfg]

/-- The shared step has one outcome in both states, and where it completes, the two next states are
those of the form. -/
theorem Permute.run_of_agreeBelow :
    (∃ f, p.run scale s = .fault f ∧ p.run scale s' = .fault f) ∨
    (∃ r, p.run scale s = .refused r ∧ p.run scale s' = .refused r) ∨
    (p.run scale s = .next (p.complete scale s) ∧ p.run scale s' = .next (p.complete scale s')) := by
  have hfaults := Permute.operandFaults_of_agreeBelow h scale
  obtain ⟨-, -, -, hrip, -, hcfg, hdraw⟩ := h
  have hreport := State.report_congr hrip hdraw
  simp only [Permute.run, hreport, hfaults, hcfg]
  cases s.report (decodeFaults p.ud p.len) with
  | some f => exact .inl ⟨f, rfl, rfl⟩
  | none =>
    cases s.cfg.ts with
    | true => exact .inl ⟨_, rfl, rfl⟩
    | false =>
      cases s.report (p.operandFaults scale s) with
      | some f => exact .inl ⟨f, rfl, rfl⟩
      | none =>
        cases p.present s.cfg with
        | false => exact .inr (.inl ⟨_, rfl, rfl⟩)
        | true => exact .inr (.inr ⟨rfl, rfl⟩)

end Agree

/-- Under the same parameters an instruction is the same form, or the same illegal row (R78). -/
theorem exec_shape_of_cfg_eq {s s' : State} (hcfg : s'.cfg = s.cfg) (i : Instr) :
    (∃ (p : Permute) (scale : Nat), exec i s = p.run scale s ∧ exec i s' = p.run scale s' ∧
      p.dest = destOf i ∧ p.form.vl = vlOf i ∧ p.form.kl = klOf i) ∨
    (exec i s = runIllegal i.length s ∧ exec i s' = runIllegal i.length s') := by
  cases i
  case udVpermdVexL0 | udVpermdEvexLL00 | udVpermdEvexLL11 | udVpermwEvexLL11 =>
    exact .inr ⟨rfl, rfl⟩
  all_goals exact .inl ⟨_, _, rfl, by rw [← hcfg]; rfl, rfl, rfl, rfl⟩

/-- The outcome of an illegal row is a fault that depends on `rip` and `draw` alone (R131, R139). -/
theorem runIllegal_congr {s s' : State} (hrip : s'.rip = s.rip) (hdraw : s'.draw = s.draw)
    (len : Nat) : ∃ f, runIllegal len s = .fault f ∧ runIllegal len s' = .fault f := by
  simp only [runIllegal, State.report_congr hrip hdraw]
  cases s.report (decodeFaults true len) with
  | some f => exact ⟨f, rfl, rfl⟩
  | none => exact ⟨_, rfl, rfl⟩

/-- An instruction has one outcome in states that agree below its vector length and number of elements,
with the same destination and `rip` where it completes (R14, R15, R98). -/
theorem exec_of_agreeBelow {i : Instr} {s s' : State} (h : AgreeBelow (vlOf i) (klOf i) s s') :
    (∃ f, exec i s = .fault f ∧ exec i s' = .fault f) ∨
    (∃ r, exec i s = .refused r ∧ exec i s' = .refused r) ∨
    (∃ t t', exec i s = .next t ∧ exec i s' = .next t' ∧
      t'.readZmm (destOf i) = t.readZmm (destOf i) ∧ t'.rip = t.rip) := by
  have ⟨_, _, _, hrip, _, hcfg, hdraw⟩ := h
  obtain ⟨p, scale, hs, hs', hdest, hvl, hkl⟩ | ⟨hs, hs'⟩ := exec_shape_of_cfg_eq hcfg i
  · rw [← hvl, ← hkl] at h
    rw [hs, hs', ← hdest]
    obtain hf | hr | ⟨hn, hn'⟩ := Permute.run_of_agreeBelow h scale
    · exact .inl hf
    · exact .inr (.inl hr)
    · exact .inr (.inr ⟨_, _, hn, hn', Permute.complete_of_agreeBelow h scale⟩)
  · rw [hs, hs']
    exact .inl (runIllegal_congr hrip hdraw _)

end Sys2Proof.Machine
end

section
/-!
PROOFS. The statements about the state (R12 to R26), addresses (R59), and the step (R17, R69, R90, R163).
-/

namespace Sys2Proof.Proofs

open Sys2Proof.Machine Sys2Proof.Safety

/-- Settles O50: the decoder is given the whole encoding, which it reads back, and where the instruction
stands neither its placement nor the platform is against it. -/
theorem storedEncodingIsExecuted : Obligations.StoredEncodingIsExecuted := by
  intro s i hwf hmode hne hstored htop hcanonical hside hfetch
  obtain ⟨rest, hdec⟩ := State.decode_codeWindow_of_stored hwf hstored htop
  exact step_eq_exec hmode hne hdec (State.placement_eq_none.2 ⟨htop, hcanonical, hside⟩)
    (fetchRun_eq_none hfetch)

/-- Settles O56: every completed step keeps each of these, so every run does. -/
theorem runsChangeOnlyVectorRegistersAndRip : Obligations.RunsChangeOnlyVectorRegistersAndRip :=
  fun _ s _ => run_keeps (P := SameConstants s)
    (fun _ _ hs hstep => hs.trans (step_sameConstants hstep)) (SameConstants.refl s)

/-- Settles O16: a completed instruction is a completed form, whose frame is known. -/
theorem completedStepFrame : Obligations.CompletedStepFrame := by
  intro i s t h
  obtain ⟨p, scale, hdest, hlen, -, -, -, -, -, -, -, rfl⟩ := exec_eq_next h
  exact ⟨hdest ▸ p.frame_complete scale s, by simp [Permute.next, hlen]⟩

/-- Settles O23: the two states give one outcome. -/
theorem bitsAboveTheLengthAreNotRead : Obligations.BitsAboveTheLengthAreNotRead := by
  intro i s s' h
  obtain ⟨f, hs, hs'⟩ | ⟨r, hs, hs'⟩ | ⟨t, t', hs, hs', hdest, hrip⟩ := exec_of_agreeBelow h
  · simp [hs, hs']
  · simp [hs, hs']
  · simp [hs, hs', hdest, hrip]

/-- Settles O27: the model's sum is R59's reduced modulo 2^64, which a reduction modulo 2^32 does not
see. -/
theorem effectiveAddressIsTheReducedSum : Obligations.EffectiveAddressIsTheReducedSum := by
  intro s legacy scale next m
  rw [State.effAddr, s.offset_eq_ofInt, BitVec.toNat_add, Int.natCast_mod, Int.natCast_add]
  by_cases h : LegacyPrefix.addr32 ∈ legacy
  · rw [if_pos (addrSize32_iff.2 h), if_pos h, toNat_setWidth_ofInt_cast]
    rfl
  · rw [if_neg (mt addrSize32_iff.1 h), if_neg h, toNat_ofInt_cast]
    rfl

/-- Settles O47: with CR4 zero neither vector state is enabled, so every instruction has a #UD
condition. -/
theorem nothingExecutesBeforeEnabling : Obligations.NothingExecutesBeforeEnabling := by
  intro i s t c base hcr4 hcfg h
  obtain ⟨-, -, -, -, -, -, hu, -⟩ := exec_eq_next h
  obtain ⟨havx, havx512⟩ := summarise_of_cr4_eq_zero base hcr4
  rw [hcfg, raisesUD_of_not_enabled havx havx512] at hu
  cases hu

/-- Settles O52: the first three are the branches of `fetch`, the last the negation of the placement
rule. -/
theorem refusedSteps : Obligations.RefusedSteps := by
  intro s
  refine ⟨step_of_not_mode64, step_of_rip_eq_codeEnd, fun _ hmode hne => step_of_reject hmode hne,
    fun i rest hmode hne hdec hbad => ?_⟩
  cases hp : s.placement i.length with
  | some r => exact ⟨r, step_of_placement_eq_some hmode hne hdec hp⟩
  | none =>
    obtain ⟨htop, hcanonical, hside⟩ := State.placement_eq_none.1 hp
    obtain hbad | hbad | hbad := hbad
    · omega
    · cases hcanonical.symm.trans hbad
    · omega

/-- Settles O53: a completed instruction has at most 15 bytes and stands where adding its length does
not wrap. -/
theorem completedStepAdvancesByTheLength : Obligations.CompletedStepAdvancesByTheLength := by
  intro s t h
  obtain ⟨i, rest, -, -, hdec, hplace, -, hexec⟩ := step_eq_next h
  obtain ⟨-, -, -, -, -, -, -, hlen, -⟩ := exec_eq_next hexec
  obtain ⟨-, -, hrip, -⟩ := exec_next_keeps hexec
  exact ⟨i, rest, hdec, hexec, by rw [hrip, State.toNat_advance hplace], five_le_length i, hlen⟩

end Sys2Proof.Proofs
end

section
/-!
SUPPORT. Memory and addresses (R30, R31, R34, R37): the bytes of a read and of a store, the canonical
addresses, and the platform's answers as a list of denials.
-/

namespace Sys2Proof.Machine

/-! ### Bytes read and stored (R30, R31) -/

/-- Byte `t` of a read is the byte at the `t`-th address, modulo 2^64 (R31). -/
theorem Memory.extractLsb'_readLE (m : Memory) {n t : Nat} (a : Word64) (h : t < n) :
    (m.readLE n a).extractLsb' (8 * t) 8 = m.readByte ((a.toNat + t) % 2 ^ 64) := by
  induction n generalizing a t with
  | zero => omega
  | succ n ih =>
    change (m.readLE n (a + 1#64) ++ m.readByte a.toNat).extractLsb' (8 * t) 8 = _
    cases t with
    | zero =>
      rw [BitVec.extractLsb'_append_eq_of_add_le (by decide), BitVec.extractLsb'_eq_self,
        Nat.add_zero, Nat.mod_eq_of_lt a.isLt]
    | succ t =>
      have hnext : ((a + 1#64).toNat + t) % 2 ^ 64 = (a.toNat + (t + 1)) % 2 ^ 64 := by
        rw [BitVec.toNat_add, Nat.mod_add_mod, BitVec.toNat_one (by decide), Nat.add_assoc,
          Nat.add_comm 1]
      rw [BitVec.extractLsb'_append_eq_of_le (by omega), show 8 * (t + 1) - 8 = 8 * t by omega,
        ih (a + 1#64) (by omega), hnext]

/-! ### Canonical addresses (R37) -/

/-- A bit field is a value exactly where it has its bits. -/
theorem extractLsb'_eq_iff {w start len : Nat} {a : BitVec w} {x : BitVec len} :
    a.extractLsb' start len = x ↔ ∀ i < len, a.getLsbD (start + i) = x.getLsbD i := by
  constructor
  · rintro rfl i hi
    simp [hi]
  · intro h
    apply BitVec.eq_of_getLsbD_eq
    intro i hi
    simp [hi, h i hi]

/-- A bit field is all zeros or all ones exactly where each of its bits is its highest. -/
theorem extractLsb'_zero_or_allOnes_iff {w : Nat} (a : BitVec w) (start n : Nat) :
    (a.extractLsb' start (n + 1) = 0#(n + 1) ∨ a.extractLsb' start (n + 1) = BitVec.allOnes (n + 1)) ↔
      ∀ b, start ≤ b → b < start + n + 1 → a.getLsbD b = a.getLsbD (start + n) := by
  have hzero : a.extractLsb' start (n + 1) = 0#(n + 1) ↔
      ∀ i < n + 1, a.getLsbD (start + i) = false := by
    simp [extractLsb'_eq_iff]
  have hones : a.extractLsb' start (n + 1) = BitVec.allOnes (n + 1) ↔
      ∀ i < n + 1, a.getLsbD (start + i) = true := by
    simp +contextual [extractLsb'_eq_iff]
  rw [hzero, hones]
  constructor
  · rintro (h | h) b hb hlt <;> obtain ⟨i, rfl⟩ := Nat.exists_eq_add_of_le hb <;>
      rw [h i (by omega), h n (by omega)]
  · intro h
    cases hc : a.getLsbD (start + n) with
    | false => exact .inl fun i hi => hc ▸ h (start + i) (by omega) (by omega)
    | true => exact .inr fun i hi => hc ▸ h (start + i) (by omega) (by omega)

/-! ### The platform's answers (R34, log entry 6) -/

/-- The denials that answer each of the listed reads as `answer` does, one for each read it denies. -/
def denialsOf (answer : Word64 → Nat → Option MemFault) (reads : List (Word64 × Nat)) :
    List ReadDenial :=
  reads.filterMap fun r => (answer r.1 r.2).map fun f => ⟨r.1.toNat, r.1.toNat, r.2, f⟩

/-- A denial of one read alone answers that read, and the denials after it every other (R34). -/
theorem memOK_cons_single (cfg : Launch) (b : Word64) (k : Nat) (f : MemFault) (ds : List ReadDenial)
    (a : Word64) (n : Nat) :
    memOK { cfg with readDenied := ⟨b.toNat, b.toNat, k, f⟩ :: ds } a n =
      if (a, n) = (b, k) then some f else memOK { cfg with readDenied := ds } a n := by
  have hspeaks : (b.toNat ≤ a.toNat ∧ a.toNat ≤ b.toNat) ∧ k = n ↔ (a, n) = (b, k) := by
    rw [Prod.mk.injEq, ← BitVec.toNat_inj]
    omega
  by_cases h : (a, n) = (b, k)
  · cases h
    simp [memOK]
  · have hsilent := hspeaks.not.2 h
    simp [memOK, h, ← Bool.decide_and, hsilent]

/-- The denials of a list of reads answer its reads as `answer` does, and deny no other. -/
theorem memOK_denialsOf (cfg : Launch) (answer : Word64 → Nat → Option MemFault)
    (reads : List (Word64 × Nat)) (a : Word64) (n : Nat) :
    memOK { cfg with readDenied := denialsOf answer reads } a n =
      if (a, n) ∈ reads then answer a n else none := by
  induction reads with
  | nil => rfl
  | cons r rs ih =>
    obtain ⟨b, k⟩ := r
    cases hans : answer b k with
    | none =>
      have hskip : denialsOf answer ((b, k) :: rs) = denialsOf answer rs := by simp [denialsOf, hans]
      rw [hskip, ih]
      by_cases h : (a, n) = (b, k)
      · cases h
        simp [hans]
      · simp [h]
    | some f =>
      have hhead : denialsOf answer ((b, k) :: rs) =
          ⟨b.toNat, b.toNat, k, f⟩ :: denialsOf answer rs := by
        simp [denialsOf, hans]
      rw [hhead, memOK_cons_single, ih]
      by_cases h : (a, n) = (b, k)
      · cases h
        simp [hans]
      · simp [h]

end Sys2Proof.Machine
end

section
/-!
SUPPORT. What the decoder answers (R47, R56 to R66, R69): the bytes it reads are those of the
instruction, which is well-formed and as long as they are, and it reads no byte after them.
-/

namespace Sys2Proof

open Sys2Proof.Safety

/-! ### Reading from the head of the bytes -/

/-- Where `f` answers, it has read some bytes at the head, `good` relates the answer to their number, and
it answers the same whatever bytes follow them. -/
def Reads {α : Type} (f : List Byte → Option (α × List Byte)) (good : α → Nat → Prop) : Prop :=
  ∀ bytes x rest, f bytes = some (x, rest) →
    ∃ consumed, bytes = consumed ++ rest ∧ good x consumed.length ∧
      ∀ rest', f (consumed ++ rest') = some (x, rest')

theorem Reads.congr {α : Type} {f g : List Byte → Option (α × List Byte)} {good : α → Nat → Prop}
    (h : Reads f good) (heq : ∀ bytes, g bytes = f bytes) : Reads g good := by
  rwa [funext heq]

/-- An answer that needs no byte. -/
theorem Reads.pure {α : Type} {good : α → Nat → Prop} {x : α} (h : good x 0) :
    Reads (fun bytes => some (x, bytes)) good := by
  rintro bytes _ _ ⟨⟩
  exact ⟨[], rfl, h, fun _ => rfl⟩

/-- An answer made of another that leaves the bytes after it. -/
theorem Reads.map {α β : Type} {f : List Byte → Option (α × List Byte)} {good : α → Nat → Prop}
    {good' : β → Nat → Prop} {k : α × List Byte → β × List Byte} (h : Reads f good)
    (hk : ∀ x rest, k (x, rest) = ((k (x, [])).1, rest))
    (hgood : ∀ x n, good x n → good' (k (x, [])).1 n) : Reads (fun bytes => (f bytes).map k) good' := by
  intro bytes y rest heq
  obtain ⟨⟨x, rest₀⟩, hf, hy⟩ := Option.map_eq_some_iff.1 heq
  rw [hk] at hy
  cases hy
  obtain ⟨consumed, hbytes, hx, hany⟩ := h bytes x rest hf
  refine ⟨consumed, hbytes, hgood _ _ hx, fun rest' => ?_⟩
  simp only [hany, Option.map_some, hk x rest']

/-- One byte, and then what depends on it. -/
theorem Reads.of_tail {α : Type} {f : List Byte → Option (α × List Byte)} {good : α → Nat → Prop}
    (hnil : f [] = none) (h : ∀ b, Reads (fun bytes => f (b :: bytes)) fun x n => good x (n + 1)) :
    Reads f good := by
  intro bytes x rest heq
  cases bytes with
  | nil => simp [hnil] at heq
  | cons b tail =>
    obtain ⟨consumed, rfl, hx, hany⟩ := h b tail x rest heq
    exact ⟨b :: consumed, rfl, hx, hany⟩

/-- No answer. -/
theorem Reads.none {α : Type} {good : α → Nat → Prop} :
    Reads (fun _ => Option.none) good := by
  rintro bytes x rest ⟨⟩

/-! ### Displacement and SRC2 (R56 to R58) -/

/-- A 32-bit displacement is four bytes (R58). -/
theorem reads_takeDisp32 : Reads takeDisp32 fun _ n => n = 4 := by
  refine .of_tail rfl fun b0 => .of_tail rfl fun b1 => .of_tail rfl fun b2 => .of_tail rfl fun b3 => ?_
  exact .pure rfl

/-- `mod` chooses a displacement, which has its length, and none only with `mod = 00b` (R58). -/
theorem reads_takeDisp (mod : BitVec 2) :
    Reads (takeDisp mod) fun d n => n = d.length ∧ (d = .none → mod = 0#2) := by
  by_cases h0 : mod = 0#2
  · subst h0
    exact .pure ⟨rfl, fun _ => rfl⟩
  · by_cases h1 : mod = 1#2
    · subst h1
      exact .of_tail rfl fun d => .pure ⟨rfl, nofun⟩
    · exact .congr (reads_takeDisp32.map (k := fun r => (Disp.d32 r.1, r.2)) (fun _ _ => rfl)
        fun _ _ h => ⟨h, nofun⟩) fun bytes => by simp [takeDisp, h0, h1]

/-- The index register of a SIB byte is never number 0100b (R57). -/
theorem optWf_decodeIndex (x : BitVec 1) (sib : Byte) : SibIndex.optWf (decodeIndex x sib) = true := by
  unfold decodeIndex
  split
  · rfl
  · simpa [SibIndex.optWf, SibIndex.wf]

/-- The low bits of a base register's number are the three of ModRM or SIB (R57, R59). -/
theorem extractLsb'_append_of_one_three (b : BitVec 1) (r : BitVec 3) :
    (b ++ r : BitVec 4).extractLsb' 0 3 = r := by
  rw [BitVec.extractLsb'_append_eq_of_add_le (by decide), BitVec.extractLsb'_eq_self]

/-- A displacement goes with a base register if it is not absent where the low bits are 101b (R57, R58). -/
theorem wfWithBase_append {d : Disp} {b : BitVec 1} {r : BitVec 3} (h : d = .none → r ≠ 5#3) :
    d.wfWithBase (b ++ r) = true := by
  cases d with
  | none => simpa [Disp.wfWithBase, extractLsb'_append_of_one_three] using h rfl
  | d8 d => rfl
  | d32 d => rfl

/-- A memory operand is well-formed and has the length of its SIB and displacement bytes (R57, R58). -/
theorem reads_decodeMem (mod : BitVec 2) (rm : BitVec 3) (x b : BitVec 1) :
    Reads (decodeMem mod rm x b) fun m n => m.wf = true ∧ n = m.length := by
  by_cases hsib : rm = 4#3
  · subst hsib
    refine .of_tail rfl fun sib => ?_
    by_cases hbase : mod = 0#2 ∧ sib.extractLsb' 0 3 = 5#3
    · simp only [decodeMem, if_true, hbase, and_self]
      exact reads_takeDisp32.map (fun _ _ => rfl) fun d n h =>
        ⟨optWf_decodeIndex x sib, congrArg (· + 1) h⟩
    · simp only [decodeMem, if_true, hbase, if_false]
      refine (reads_takeDisp mod).map (fun _ _ => rfl) fun d n ⟨hn, hd⟩ => ⟨?_, ?_⟩
      · have := wfWithBase_append (b := b) fun h h5 => hbase ⟨hd h, h5⟩
        simp [MemOperand.wf, optWf_decodeIndex, this]
      · simp [MemOperand.length, hn, Nat.add_comm]
  · by_cases hrip : mod = 0#2 ∧ rm = 5#3
    · obtain ⟨rfl, rfl⟩ := hrip
      exact reads_takeDisp32.map (fun _ _ => rfl) fun d n h => ⟨rfl, h⟩
    · have hbased := (reads_takeDisp mod).map (k := fun r => (MemOperand.based (b ++ rm) r.1, r.2))
        (good' := fun m n => m.wf = true ∧ n = m.length) (fun _ _ => rfl) fun d n ⟨hn, hd⟩ => by
          have := wfWithBase_append (b := b) fun h h5 => hrip ⟨hd h, h5⟩
          exact ⟨by simp [MemOperand.wf, extractLsb'_append_of_one_three, hsib, this], hn⟩
      exact hbased.congr fun bytes => by simp [decodeMem, hsib, hrip]

/-- SRC2 is well-formed and has the length of the bytes after ModRM (R56). -/
theorem reads_decodeRegMem {w : Nat} (modrm : Byte) (x b : BitVec 1) (regNo : BitVec w) :
    Reads (decodeRegMem modrm x b regNo) fun o n => o.wf = true ∧ n = o.length := by
  by_cases hreg : modrm.extractLsb' 6 2 = 3#2
  · exact .congr (.pure (x := .reg regNo) ⟨rfl, rfl⟩) fun bytes => by simp [decodeRegMem, hreg]
  · have hmem := (reads_decodeMem (modrm.extractLsb' 6 2) (modrm.extractLsb' 0 3) x b).map
      (k := fun r => (RegMem.mem (w := w) r.1, r.2)) (good' := fun o n => o.wf = true ∧ n = o.length)
      (fun _ _ => rfl) fun _ _ h => h
    exact hmem.congr fun bytes => by simp [decodeRegMem, hreg]

/-! ### The VEX and EVEX forms (R52, R54, R66) -/

/-- The fields of a VEX form keep the legacy prefixes; ModRM and SRC2 are read (R52). -/
theorem reads_decodeVexFields (legacy : List LegacyPrefix) (p1 p2 : Byte) :
    Reads (decodeVexFields legacy p1 p2) fun e n =>
      e.legacy = legacy ∧ e.src2.wf = true ∧ n = e.src2.length + 1 :=
  .of_tail rfl fun _ => (reads_decodeRegMem _ _ _ _).map (fun _ _ => rfl)
    fun _ _ ⟨hwf, hn⟩ => ⟨rfl, hwf, congrArg (· + 1) hn⟩

/-- The fields of an EVEX form keep the legacy prefixes; ModRM and SRC2 are read (R54). -/
theorem reads_decodeEvexFields (legacy : List LegacyPrefix) (p0 p1 p2 : Byte) :
    Reads (decodeEvexFields legacy p0 p1 p2) fun e n =>
      e.legacy = legacy ∧ e.src2.wf = true ∧ n = e.src2.length + 1 :=
  .of_tail rfl fun _ => (reads_decodeRegMem _ _ _ _).map (fun _ _ => rfl)
    fun _ _ ⟨hwf, hn⟩ => ⟨rfl, hwf, congrArg (· + 1) hn⟩

/-- The decoder's answer without the reason of a rejection. -/
def Decoded.answer : Decoded → Option (Instr × List Byte)
  | .ok i rest => some (i, rest)
  | .reject _ => none

@[simp] theorem Decoded.answer_eq_some {d : Decoded} {i : Instr} {rest : List Byte} :
    d.answer = some (i, rest) ↔ d = .ok i rest := by
  cases d <;> simp [Decoded.answer]

/-- The instruction is well-formed, has these legacy prefixes, and `n` bytes after them. -/
def HasBody (legacy : List LegacyPrefix) (i : Instr) (n : Nat) : Prop :=
  legacyOf i = legacy ∧ i.WellFormed ∧ i.length = legacy.length + n

theorem hasBody_vexRow (l : BitVec 1) {e : VexFields} (h : e.src2.wf = true) :
    HasBody e.legacy (vexRow l e) (e.src2.length + 5) := by
  unfold vexRow
  split <;> exact ⟨rfl, h, by simp [Instr.length, VexFields.length]; omega⟩

theorem hasBody_evexVpermdRow (ll : BitVec 2) {e : EvexFields} (h : e.src2.wf = true) :
    HasBody e.legacy (evexVpermdRow ll e) (e.src2.length + 6) := by
  unfold evexVpermdRow
  split_ifs <;> exact ⟨rfl, h, by simp [Instr.length, EvexFields.length]; omega⟩

theorem hasBody_evexVpermwRow (ll : BitVec 2) {e : EvexFields} (h : e.src2.wf = true) :
    HasBody e.legacy (evexVpermwRow ll e) (e.src2.length + 6) := by
  unfold evexVpermwRow
  split_ifs <;> exact ⟨rfl, h, by simp [Instr.length, EvexFields.length]; omega⟩

/-- After C4h: P1, P2, the opcode and the fields (R52, R66). -/
theorem reads_decodeVex (legacy : List LegacyPrefix) :
    Reads (fun bytes => (decodeVex legacy bytes).answer) fun i n => HasBody legacy i (n + 1) := by
  refine .of_tail rfl fun p1 => .of_tail rfl fun p2 => .of_tail rfl fun op => ?_
  by_cases hpat : isVexPattern p1 p2 op = true
  · have row := (reads_decodeVexFields legacy p1 p2).map
      (k := fun r => (vexRow (p2.extractLsb' 2 1) r.1, r.2))
      (good' := fun i n => HasBody legacy i (n + 4)) (fun _ _ => rfl) (by
        rintro e _ ⟨rfl, hwf, rfl⟩
        exact hasBody_vexRow _ hwf)
    refine row.congr fun bytes => ?_
    simp only [decodeVex, hpat, if_true]
    cases decodeVexFields legacy p1 p2 bytes <;> rfl
  · exact Reads.none.congr fun bytes => by simp [decodeVex, hpat, Decoded.answer]

/-- After 62h: P0, P1, P2, the opcode and the fields (R54, R66). -/
theorem reads_decodeEvex (legacy : List LegacyPrefix) :
    Reads (fun bytes => (decodeEvex legacy bytes).answer) fun i n => HasBody legacy i (n + 1) := by
  refine .of_tail rfl fun p0 => .of_tail rfl fun p1 => .of_tail rfl fun p2 => .of_tail rfl fun op => ?_
  have row {f : EvexFields → Instr} (hf : ∀ e : EvexFields, e.src2.wf = true →
      HasBody e.legacy (f e) (e.src2.length + 6)) :
      Reads (fun bytes => (decodeEvexFields legacy p0 p1 p2 bytes).map fun r => (f r.1, r.2))
        fun i n => HasBody legacy i (n + 5) := by
    refine (reads_decodeEvexFields legacy p0 p1 p2).map (fun _ _ => rfl) ?_
    rintro e _ ⟨rfl, hwf, rfl⟩
    exact hf e hwf
  by_cases hpat : isEvexPattern p0 p1 = true
  · by_cases hd : p1.extractLsb' 7 1 = 0#1 ∧ op = 0x36#8
    · refine (row fun e => hasBody_evexVpermdRow (p2.extractLsb' 5 2)).congr fun bytes => ?_
      simp only [decodeEvex, hpat, if_true, hd, and_self]
      cases decodeEvexFields legacy p0 p1 p2 bytes <;> rfl
    · by_cases hw : p1.extractLsb' 7 1 = 1#1 ∧ op = 0x8D#8
      · refine (row fun e => hasBody_evexVpermwRow (p2.extractLsb' 5 2)).congr fun bytes => ?_
        simp only [decodeEvex, hpat, if_true, hw, and_self]
        cases decodeEvexFields legacy p0 p1 p2 bytes <;> rfl
      · exact Reads.none.congr fun bytes => by simp [decodeEvex, hpat, hd, hw, Decoded.answer]
  · exact Reads.none.congr fun bytes => by simp [decodeEvex, hpat, Decoded.answer]

/-- After the legacy prefixes: the VEX or EVEX byte and the form (R69 step 2). -/
theorem reads_decodeBody (legacy : List LegacyPrefix) :
    Reads (fun bytes => (decodeBody legacy bytes).answer) (HasBody legacy) := by
  refine .of_tail rfl fun c => ?_
  by_cases hvex : c = 0xC4#8
  · exact (reads_decodeVex legacy).congr fun bytes => by simp [decodeBody, hvex]
  · by_cases hevex : c = 0x62#8
    · exact (reads_decodeEvex legacy).congr fun bytes => by simp [decodeBody, hevex]
    · refine Reads.none.congr fun bytes => ?_
      by_cases hc5 : c = 0xC5#8 <;> simp [decodeBody, hvex, hevex, hc5, Decoded.answer]

/-- The byte after the legacy prefixes of an instruction is none of them (R69 step 2). -/
theorem exists_cons_of_decodeBody_eq_ok {legacy : List LegacyPrefix} {bytes rest : List Byte} {i : Instr}
    (h : decodeBody legacy bytes = .ok i rest) :
    ∃ c tail, bytes = c :: tail ∧ LegacyPrefix.ofByte c = none := by
  cases bytes with
  | nil => simp [decodeBody] at h
  | cons c tail =>
    refine ⟨c, tail, rfl, ?_⟩
    by_cases hvex : c = 0xC4#8
    · subst hvex
      decide
    · by_cases hevex : c = 0x62#8
      · subst hevex
        decide
      · by_cases hc5 : c = 0xC5#8 <;> simp [decodeBody, hvex, hevex, hc5] at h

/-! ### The decoder (R69) -/

/-- What the decoder answers: it has read bytes as many as the well-formed instruction's length, its
legacy prefixes first, and it answers the same whatever bytes follow them. -/
theorem decode_eq_ok {bytes rest : List Byte} {i : Instr} (h : decode bytes = .ok i rest) :
    ∃ consumed, bytes = consumed ++ rest ∧ i.WellFormed ∧ consumed.length = i.length ∧
      (legacyOf i).map LegacyPrefix.toByte <+: consumed ∧
      ∀ rest', decode (consumed ++ rest') = .ok i rest' := by
  obtain ⟨body, hsplit, ⟨hlegacy, hwf, hlen⟩, hany⟩ :=
    reads_decodeBody (splitLegacy bytes).1 _ i rest (Decoded.answer_eq_some.2 h)
  simp only [Decoded.answer_eq_some] at hany
  obtain ⟨c, tail, hbody, hc⟩ := exists_cons_of_decodeBody_eq_ok (by simpa using hany [])
  subst hbody
  rw [← hlegacy] at hlen hany
  refine ⟨(legacyOf i).map LegacyPrefix.toByte ++ c :: tail, ?_, hwf, ?_, ⟨_, rfl⟩, fun rest' => ?_⟩
  · rw [splitLegacy_eq bytes, hsplit, hlegacy, List.append_assoc]
  · simp [hlen]
  · rw [List.append_assoc, List.cons_append, decode_append _ _ _ hc]
    exact hany rest'

end Sys2Proof
end

section
/-!
SUPPORT. The step where the bytes at `rip` are known (R47, R69, log entry 11), and where the platform
denies one of them (R47, R139).
-/

namespace Sys2Proof.Machine

open Sys2Proof.Safety

/-! ### The bytes a store leaves in memory (R30) -/

theorem toNat_add_one_of_lt {a : Word64} {n : Nat} (h : a.toNat + (n + 1) < 2 ^ 64) :
    (a + 1#64).toNat = a.toNat + 1 := by
  rw [BitVec.toNat_add, BitVec.toNat_one (by decide), Nat.mod_eq_of_lt (by omega)]

/-- Bytes stored from `a` on, below the top of the address space, leave every byte below `a`. -/
theorem Memory.readByte_writeBytes_of_lt {m : Memory} {a : Word64} {vs : List Byte} {x : Nat}
    (hm : m.wf = true) (htop : a.toNat + vs.length < 2 ^ 64) (hx : x < a.toNat) :
    (m.writeBytes a vs).readByte x = m.readByte x := by
  induction vs generalizing m a with
  | nil => rfl
  | cons v vs ih =>
    have hnext := toNat_add_one_of_lt htop
    rw [List.length_cons] at htop
    rw [Memory.writeBytes, ih (Memory.wf_writeByte v hm a.isLt) (by omega) (by omega),
      Memory.readByte_writeByte _ _ _ hm, if_neg (by omega)]

/-- Bytes stored from `a` on, below the top of the address space, are read back (R30). -/
theorem Memory.readByte_writeBytes {m : Memory} {a : Word64} {vs : List Byte} {t : Nat}
    (hm : m.wf = true) (htop : a.toNat + vs.length < 2 ^ 64) (ht : t < vs.length) :
    (m.writeBytes a vs).readByte (a.toNat + t) = vs[t] := by
  induction vs generalizing m a t with
  | nil => cases ht
  | cons v vs ih =>
    have hnext := toNat_add_one_of_lt htop
    have hwf := Memory.wf_writeByte v hm a.isLt
    rw [List.length_cons] at htop ht
    cases t with
    | zero =>
      rw [Memory.writeBytes, Memory.readByte_writeBytes_of_lt hwf (by omega) (by omega),
        Memory.readByte_writeByte _ _ _ hm]
      simp
    | succ t =>
      have := ih (a := a + 1#64) hwf (by omega) (by omega : t < vs.length)
      rwa [hnext, Nat.add_assoc, Nat.add_comm 1] at this

@[simp] theorem length_bytesOfWord (n w : Nat) : (bytesOfWord n w).length = n := by
  induction n generalizing w with
  | zero => rfl
  | succ n ih => simp [bytesOfWord, ih]

/-- A table word of at most fifteen bytes is laid out in fifteen (log entry 11). -/
theorem length_tableBytes {nbits : Nat} (h : nbits ≤ 120) (w : Nat) :
    (tableBytes nbits w).length = 15 := by
  simp only [tableBytes, Config.maxInstrLength, List.length_append, length_bytesOfWord,
    List.length_replicate]
  omega

/-! ### The bytes the decoder is given (R47, R69) -/

/-- Bytes that stand at `rip`, below the top of the address space, begin the bytes the decoder is given,
where at most eleven of them follow the legacy prefixes they begin with. -/
theorem State.prefix_codeWindow {s : State} {legacy : List LegacyPrefix} {bytes : List Byte}
    (h : ∀ t (ht : t < bytes.length), s.mem.readByte (s.rip.toNat + t) = bytes[t])
    (hlegacy : legacy.map LegacyPrefix.toByte <+: bytes) (hlen : bytes.length ≤ legacy.length + maxBody)
    (htop : s.rip.toNat + bytes.length ≤ 2 ^ 64) : bytes <+: s.codeWindow := by
  have hle : legacy.length ≤ bytes.length := by simpa using hlegacy.length_le
  have hrun : legacy.length ≤ prefixRun s.mem (addressSpace - s.rip.toNat) s.rip.toNat := by
    refine le_prefixRun (by unfold addressSpace; omega) fun t ht => ?_
    rw [h t (by omega), ← hlegacy.getElem (by simpa using ht), List.getElem_map,
      LegacyPrefix.ofByte_toByte]
    rfl
  refine Memory.prefix_bytesFrom h ?_
  unfold addressSpace at *
  omega

/-- Bytes that stand at `rip` and decode to an instruction, with some of them left over or not, are where
that instruction is decoded (R47, R69). -/
theorem State.decode_codeWindow_of_decode {s : State} {bytes rest : List Byte} {i : Instr}
    (hdec : decode bytes = .ok i rest)
    (h : ∀ t (ht : t < bytes.length), s.mem.readByte (s.rip.toNat + t) = bytes[t])
    (htop : s.rip.toNat + bytes.length ≤ 2 ^ 64) : ∃ rest', decode s.codeWindow = .ok i rest' := by
  obtain ⟨consumed, rfl, -, hlen, hlegacy, hany⟩ := decode_eq_ok hdec
  rw [List.length_append] at htop
  have hstored (t) (ht : t < consumed.length) : s.mem.readByte (s.rip.toNat + t) = consumed[t] := by
    rw [h t (by rw [List.length_append]; omega), List.getElem_append_left ht]
  obtain ⟨rest', hwindow⟩ := State.prefix_codeWindow hstored hlegacy
    (hlen ▸ length_le_legacyOf i) (by omega)
  exact ⟨rest', hwindow ▸ hany rest'⟩

/-- Where a table word that decodes to an instruction has been placed, that instruction is decoded (R69,
log entry 11). -/
theorem State.decode_codeWindow_withFetchWord {s : State} {nbits w : Nat} {i : Instr}
    (hm : s.mem.wf = true) (hbits : nbits ≤ 120) (hdec : decodeTableWord nbits w = some i)
    (htop : s.rip.toNat + 15 < 2 ^ 64) :
    ∃ rest, decode (s.withFetchWord nbits w).codeWindow = .ok i rest := by
  have hlen := length_tableBytes hbits w
  cases htable : decode (tableBytes nbits w) with
  | reject why => simp [decodeTableWord, htable] at hdec
  | ok j rest =>
    obtain rfl : j = i := by simpa [decodeTableWord, htable] using hdec
    exact State.decode_codeWindow_of_decode htable
      (fun t ht => Memory.readByte_writeBytes hm (by omega) ht) (by rw [hlen]; exact htop.le)

/-! ### A denied fetch (R47, R139) -/

/-- A step at an instruction with a byte that may not be fetched faults with the platform's answer or
another fault of R139's line 2 that applies. -/
theorem step_of_fetchRun_eq_some {s : State} {i : Instr} {rest : List Byte} {f : FetchFault}
    (hmode : s.cfg.mode64 = true) (hne : s.rip ≠ s.cfg.codeEnd)
    (hdec : decode s.codeWindow = .ok i rest) (hp : s.placement i.length = none)
    (hf : fetchRun s.cfg i.length s.rip = some f) :
    ∃ g, s.report (ofFetchFault f :: decodeFaults (raisesUD s.cfg i) i.length) = some g ∧
      step s = .fault g := by
  obtain ⟨g, hg⟩ := State.exists_report (s := s)
    (List.cons_ne_nil (ofFetchFault f) (decodeFaults (raisesUD s.cfg i) i.length))
  exact ⟨g, hg, by simp [step, State.fetch, State.fetchChecked, hmode, hne, hdec, hp, hf, hg, raise]⟩

end Sys2Proof.Machine
end

section
/-!
SUPPORT. The faults of an instruction (R34 to R37, R137, R139): which faults of the operand apply, named
by the instruction's fields, and what a fault of `exec` says.
-/

namespace Sys2Proof.Machine

open Sys2Proof.Safety

/-- The faults that apply to the read an instruction makes, if it makes one (R34 to R37, R137). -/
def operandFaultsOf (s : State) (i : Instr) : List Fault :=
  match operandRead s i, memOf i with
  | some (ea, n, checked), some m => s.readFaults (legacyOf i) m ea n checked
  | _, _ => []

/-- The faults of a form's operand are those of the instruction with the same read, prefixes and memory
operand. -/
theorem Permute.operandFaults_eq_operandFaultsOf {p : Permute} {scale : Nat} {s : State} {i : Instr}
    (hread : operandRead s i = readVia s p.legacy scale p.len p.bytes p.bcast p.src2)
    (hlegacy : p.legacy = legacyOf i) (hmem : ∀ m, p.src2 = .mem m → memOf i = some m) :
    p.operandFaults scale s = operandFaultsOf s i := by
  unfold Permute.operandFaults operandFaultsOf
  rw [hread, ← hlegacy]
  cases hsrc : p.src2 with
  | reg r => simp [readVia]
  | mem m => simp [readVia, hmem m hsrc, Permute.next]

/-- The memory operand of a VEX form is not changed by widening its register numbers (R61). -/
theorem eq_mem_of_widen_eq_mem {o : RegMem 4} {m : MemOperand} (h : widen o = .mem m) : o = .mem m := by
  cases o with
  | reg r => cases h
  | mem m' =>
    cases h
    rfl

/-- An instruction with no #UD condition is the shared step of a form with the instruction's length and
faults of the operand. -/
theorem exec_eq_run_with_operandFaultsOf {i : Instr} {s : State} (hu : raisesUD s.cfg i = false) :
    ∃ (p : Permute) (scale : Nat), exec i s = p.run scale s ∧ p.ud = false ∧ p.len = i.length ∧
      p.operandFaults scale s = operandFaultsOf s i := by
  have hb {features : Bool} {e : EvexFields}
      (h : (evexIllegal false e || !features || !s.cfg.osAvx512Enabled) = false) : e.b = false := by
    simp only [Bool.or_eq_false_iff] at h
    exact b_eq_false_of_evexIllegal h.1.1
  cases i
  case udVpermdVexL0 | udVpermdEvexLL00 | udVpermdEvexLL11 | udVpermwEvexLL11 => cases hu
  all_goals
    refine ⟨_, _, rfl, hu, rfl, Permute.operandFaults_eq_operandFaultsOf ?_ rfl fun m hm => ?_⟩
  case vpermdVex256.refine_1 e => exact operandRead_vpermdVex256 s _ e
  case vpermdVex256.refine_2 e => simp [memOf, eq_mem_of_widen_eq_mem hm]
  case vpermdEvex256.refine_1 e => exact vpermdRead_eq_readVia s vpermd256 _ e
  case vpermdEvex512.refine_1 e => exact vpermdRead_eq_readVia s vpermd512 _ e
  case vpermwEvex128.refine_1 e => exact vpermwRead_eq_readVia s vpermw128 _ (hb hu)
  case vpermwEvex256.refine_1 e => exact vpermwRead_eq_readVia s vpermw256 _ (hb hu)
  case vpermwEvex512.refine_1 e => exact vpermwRead_eq_readVia s vpermw512 _ (hb hu)
  all_goals
    rename_i e
    have hsrc : e.src2 = .mem m := hm
    simp [memOf, hsrc]

/-- Where no earlier fault applies, the faults of an instruction are those reported of its operand (R137,
R139). -/
theorem exec_eq_fault_iff_report {i : Instr} {s : State} {f : Fault} (hr : reachesOperand s i = true) :
    exec i s = .fault f ↔ s.report (operandFaultsOf s i) = some f := by
  obtain ⟨hu, hl, hts⟩ := reachesOperand_iff.1 hr
  obtain ⟨p, scale, hrun, hud, hlen, hop⟩ := exec_eq_run_with_operandFaultsOf hu
  have hdec : s.report (decodeFaults p.ud p.len) = none := by simp [hud, hlen, hl]
  rw [hrun, ← hop]
  simp only [Permute.run, hdec, hts]
  cases s.report (p.operandFaults scale s) with
  | some g => simp [raise]
  | none => cases p.present s.cfg <;> simp

/-- Where a fault before the operand's applies, an instruction faults with one that does (R139). -/
theorem exec_of_not_reachesOperand {i : Instr} {s : State} (h : ¬ reachesOperand s i = true) :
    ∃ f, exec i s = .fault f ∧
      ((f = .invalidOpcode ∧ raisesUD s.cfg i = true) ∨ (f = .generalProtection ∧ 15 < i.length) ∨
        (f = .deviceNotAvailable ∧ s.cfg.ts = true)) := by
  rw [reachesOperand_iff] at h
  obtain ⟨p, scale, hrun, -, hlen, -, -, hud, -⟩ | ⟨hrun, hu, -⟩ := exec_shape i s
  · rw [← hud, ← hlen] at h
    rw [hrun, ← hud, ← hlen]
    obtain ⟨f, hf, e⟩ | ⟨-, -, ht, e⟩ | ⟨hu, hl, ht, -⟩ | ⟨hu, hl, ht, -⟩ | ⟨hu, hl, ht, -⟩ :=
      p.run_cases scale s
    · refine ⟨f, e, ?_⟩
      rw [← or_assoc, ← mem_decodeFaults]
      exact .inl (State.mem_of_report hf)
    · exact ⟨_, e, .inr (.inr ⟨rfl, ht⟩)⟩
    all_goals exact absurd ⟨hu, hl, ht⟩ h
  · obtain e | ⟨hl, e⟩ := runIllegal_cases i.length s
    · exact ⟨_, hrun.trans e, .inl ⟨rfl, hu⟩⟩
    · exact ⟨_, hrun.trans e, .inr (.inl ⟨rfl, hl⟩)⟩

/-- A fault of `exec` is #UD, the length limit's #GP(0), #NM, or, where none of these applies, one of the
operand's (R139). -/
theorem exec_eq_fault {i : Instr} {s : State} {f : Fault} (h : exec i s = .fault f) :
    (f = .invalidOpcode ∧ raisesUD s.cfg i = true) ∨ (f = .generalProtection ∧ 15 < i.length) ∨
      (f = .deviceNotAvailable ∧ s.cfg.ts = true) ∨
      (reachesOperand s i = true ∧ f ∈ operandFaultsOf s i) := by
  by_cases hr : reachesOperand s i = true
  · exact .inr (.inr (.inr ⟨hr, State.mem_of_report ((exec_eq_fault_iff_report hr).1 h)⟩))
  · obtain ⟨g, hg, hwhy⟩ := exec_of_not_reachesOperand hr
    cases h.symm.trans hg
    tauto

/-- An instruction that makes a read has a memory operand, and the faults of that read are its
operand's. -/
theorem exists_memOf_of_operandRead {i : Instr} {s : State} {ea : Word64} {n : Nat} {checked : Bool}
    (h : operandRead s i = some (ea, n, checked)) :
    ∃ m, memOf i = some m ∧ operandFaultsOf s i = s.readFaults (legacyOf i) m ea n checked := by
  cases hm : memOf i with
  | none => simp [operandRead_eq_none_of_memOf_eq_none s hm] at h
  | some m => exact ⟨m, rfl, by simp [operandFaultsOf, h, hm]⟩

/-- Where no earlier fault applies and the read an instruction makes has one fault, the instruction raises
it (R137). -/
theorem exec_of_readFaults_eq_singleton {i : Instr} {s : State} {m : MemOperand} {ea : Word64} {n : Nat}
    {checked : Bool} {f : Fault} (hread : operandRead s i = some (ea, n, checked))
    (hm : memOf i = some m) (hreach : reachesOperand s i = true)
    (hf : s.readFaults (legacyOf i) m ea n checked = [f]) : exec i s = .fault f := by
  have hop : operandFaultsOf s i = [f] := by simp [operandFaultsOf, hread, hm, hf]
  rw [exec_eq_fault_iff_report hreach, hop, State.report_singleton]

/-- #AC(0) is a fault of a read exactly where the read is checked for alignment, under alignment checking,
and misaligned (R36). -/
theorem State.alignmentCheck_mem_readFaults {s : State} {legacy : List LegacyPrefix} {m : MemOperand}
    {ea : Word64} {n : Nat} {checked : Bool} :
    .alignmentCheck ∈ s.readFaults legacy m ea n checked ↔
      checked = true ∧ s.cfg.alignCheck = true ∧ ea.toNat % 4 ≠ 0 := by
  have hplatform (f : MemFault) : ofMemFault f ≠ .alignmentCheck := by cases f <;> exact nofun
  have hcanonical : .alignmentCheck ∉ (if allCanonical s.cfg.la57 n ea then []
      else [if usesStackSegment legacy m then Fault.stackFault else .generalProtection]) := by
    split_ifs <;> simp
  simp [State.readFaults, hcanonical, hplatform, and_assoc]

/-- The alignment condition of a read that is unchecked, aligned, or made without alignment checking
(R36). -/
theorem misaligned_eq_false {s : State} {ea : Word64} {checked : Bool}
    (h : checked = false ∨ s.cfg.alignCheck = false ∨ ea.toNat % 4 = 0) :
    (checked && s.cfg.alignCheck && ea.toNat % 4 != 0) = false := by
  rcases h with h | h | h <;> simp [h]

/-- The only read checked for alignment is the broadcast doubleword of an EVEX form of VPERMD (R36). -/
theorem operandRead_checked {i : Instr} {s : State} {ea : Word64} {n : Nat}
    (h : operandRead s i = some (ea, n, true)) :
    ∃ e m, (i = .vpermdEvex256 e ∨ i = .vpermdEvex512 e) ∧ e.b = true ∧ e.src2 = .mem m ∧
      ea = s.effAddr e.legacy 4 (s.rip + BitVec.ofNat 64 e.length) m := by
  have unchecked {legacy : List LegacyPrefix} {scale len n' : Nat} {o : RegMem 5} :
      readVia s legacy scale len n' false o ≠ some (ea, n, true) := by
    cases o <;> simp [readVia]
  have vpermd {n' : Nat} {e : EvexFields} (he : vpermdRead s n' e = some (ea, n, true)) :
      ∃ m, e.b = true ∧ e.src2 = .mem m ∧
        ea = s.effAddr e.legacy 4 (s.rip + BitVec.ofNat 64 e.length) m := by
    cases hb : e.b with
    | false => simp [vpermdRead, hb, unchecked] at he
    | true =>
      cases hsrc : e.src2 with
      | reg r => simp [vpermdRead, hb, hsrc, readVia] at he
      | mem m =>
        simp only [vpermdRead, hb, hsrc, readVia, if_true, Option.some.injEq, Prod.mk.injEq] at he
        exact ⟨m, rfl, rfl, he.1.symm⟩
  have vpermw {n' : Nat} {e : EvexFields} : vpermwRead s n' e ≠ some (ea, n, true) := by
    cases hb : e.b <;> simp [vpermwRead, hb, unchecked]
  cases i
  case vpermdVex256 e => exact absurd h unchecked
  case vpermdEvex256 e =>
    obtain ⟨m, hm⟩ := vpermd h
    exact ⟨e, m, .inl rfl, hm⟩
  case vpermdEvex512 e =>
    obtain ⟨m, hm⟩ := vpermd h
    exact ⟨e, m, .inr rfl, hm⟩
  case vpermwEvex128 | vpermwEvex256 | vpermwEvex512 => exact absurd h vpermw
  case udVpermdVexL0 | udVpermdEvexLL00 | udVpermdEvexLL11 | udVpermwEvexLL11 => cases h

/-- An instruction that raises #AC(0) reads a misaligned doubleword under alignment checking (R36). -/
theorem operandRead_of_alignmentCheck {i : Instr} {s : State} (h : exec i s = .fault .alignmentCheck) :
    ∃ ea n, operandRead s i = some (ea, n, true) ∧ s.cfg.alignCheck = true ∧ ea.toNat % 4 ≠ 0 := by
  obtain ⟨h, -⟩ | ⟨h, -⟩ | ⟨h, -⟩ | ⟨-, hmem⟩ := exec_eq_fault h
  · cases h
  · cases h
  · cases h
  · cases hread : operandRead s i with
    | none => simp [operandFaultsOf, hread] at hmem
    | some r =>
      obtain ⟨ea, n, checked⟩ := r
      obtain ⟨m, -, hop⟩ := exists_memOf_of_operandRead hread
      rw [hop, State.alignmentCheck_mem_readFaults] at hmem
      obtain ⟨rfl, halign, hmis⟩ := hmem
      exact ⟨ea, n, rfl, halign, hmis⟩

end Sys2Proof.Machine
end

section
/-!
PROOFS. The statements about memory, the faults of the operand and of fetching, and placed code (R31 to
R37, R47, R69, R137, R139).
-/

namespace Sys2Proof.Proofs

open Sys2Proof.Machine Sys2Proof.Safety

/-- Settles O3: the bytes the decoder has read are all before those it leaves over. -/
theorem decodeReadsOnlyTheInstructionBytes : Obligations.DecodeReadsOnlyTheInstructionBytes := by
  intro consumed rest rest' i h
  obtain ⟨read, heq, -, -, -, hany⟩ := decode_eq_ok h
  exact List.append_cancel_right heq ▸ hany rest'

/-- Settles O26, from the bytes of a read. -/
theorem memReadIsLittleEndian : Obligations.MemReadIsLittleEndian :=
  fun m _ a _ h => m.extractLsb'_readLE a h

/-- Settles O28: the denials of every read of each of the four sizes are one list. -/
theorem everyPlatformPredicateIsRepresentable : Obligations.EveryPlatformPredicateIsRepresentable := by
  intro cfg answer
  refine ⟨denialsOf answer (Finset.univ.toList ×ˢ [4, 16, 32, 64]), fun a n hn => ?_⟩
  rw [memOK_denialsOf, if_pos]
  simpa using hn

/-- Settles O43: the model compares bits 63:47, or 63:56, with all zeros and all ones. -/
theorem canonicalMeansUpperBitsEqual : Obligations.CanonicalMeansUpperBitsEqual := by
  intro a
  constructor
  · simpa [canonical] using extractLsb'_zero_or_allOnes_iff a 47 16
  · simpa [canonical] using extractLsb'_zero_or_allOnes_iff a 56 7

/-- Settles O41: the platform's answer is the one fault of the operand. -/
theorem platformAnswerIsTheFault : Obligations.PlatformAnswerIsTheFault := by
  intro i s ea n checked f hread hreach hcanonical hdenied haligned
  obtain ⟨m, hm, -⟩ := exists_memOf_of_operandRead hread
  refine exec_of_readFaults_eq_singleton hread hm hreach ?_
  simp [State.readFaults, hcanonical, hdenied, misaligned_eq_false haligned]

/-- Settles O42: the fault of the address is the one fault of the operand. -/
theorem nonCanonicalOperandFaults : Obligations.NonCanonicalOperandFaults := by
  intro i s ea n checked m hread hm hreach hcanonical hadmitted haligned
  refine exec_of_readFaults_eq_singleton hread hm hreach ?_
  simp [State.readFaults, hcanonical, hadmitted, misaligned_eq_false haligned]

/-- Settles O44: the faults of the operand do not depend on the mask, and where the operand is not
reached an earlier fault applies. -/
theorem maskDoesNotSuppressFaults : Obligations.MaskDoesNotSuppressFaults := by
  intro i s ea n checked hread hbad
  by_cases hreach : reachesOperand s i = true
  · obtain ⟨m, -, hop⟩ := exists_memOf_of_operandRead hread
    have hne : s.readFaults (legacyOf i) m ea n checked ≠ [] := by
      simp [State.readFaults_eq_nil, hbad]
    obtain ⟨f, hf⟩ := State.exists_report (s := s) hne
    exact ⟨f, (exec_eq_fault_iff_report hreach).2 (hop ▸ hf)⟩
  · obtain ⟨f, hf, -⟩ := exec_of_not_reachesOperand hreach
    exact ⟨f, hf⟩

/-- Settles O45: the misalignment is the one fault of the broadcast read, and no other read is checked. -/
theorem alignmentCheckOnlyOnBroadcast : Obligations.AlignmentCheckOnlyOnBroadcast := by
  constructor
  · intro e s m ea hb hsrc hea halign hmis hcanonical hadmitted
    have hread (n : Nat) : vpermdRead s n e = some (ea, 4, true) := by
      simp [vpermdRead, readVia, hb, hsrc, hea]
    have hfaults (legacy : List LegacyPrefix) : s.readFaults legacy m ea 4 true = [.alignmentCheck] := by
      simp [State.readFaults, hcanonical, hadmitted, halign, hmis]
    exact ⟨fun hreach => exec_of_readFaults_eq_singleton (hread 32) (by simp [memOf, hsrc]) hreach
        (hfaults _),
      fun hreach => exec_of_readFaults_eq_singleton (hread 64) (by simp [memOf, hsrc]) hreach
        (hfaults _)⟩
  · intro i s h
    obtain ⟨ea, n, hread, halign, hmis⟩ := operandRead_of_alignmentCheck h
    obtain ⟨e, m, hi, hb, hsrc, rfl⟩ := operandRead_checked hread
    exact ⟨halign, e, m, hi, hb, hsrc, hmis⟩

/-- Settles O51: the reported fault is one of those of the line, which the platform's answer heads. -/
theorem deniedFetchFaults : Obligations.DeniedFetchFaults := by
  intro s i rest f hmode hne hdec hp hf
  obtain ⟨g, hg, hstep⟩ := step_of_fetchRun_eq_some hmode hne hdec hp hf
  constructor
  · intro hu hl
    rw [(decodeFaults_eq_nil _ _).2 ⟨hu, hl⟩, State.report_singleton, Option.some.injEq] at hg
    rw [hstep, hg]
  · refine ⟨g, hstep, ?_⟩
    rw [← mem_decodeFaults, ← List.mem_cons]
    exact State.mem_of_report hg

/-- Settles O58: the placed bytes decode to the instruction, and placing changes memory alone. -/
theorem placedTableWordIsExecuted : Obligations.PlacedTableWordIsExecuted := by
  intro s nbits w i hm hbits hdec hmode hne htop hp hf
  obtain ⟨rest, hwindow⟩ := State.decode_codeWindow_withFetchWord hm hbits hdec (by omega)
  exact step_eq_exec (s := s.withFetchWord nbits w) hmode hne hwindow hp hf

end Sys2Proof.Proofs
end

section
/-!
SUPPORT. Bytes that are no encoding of a row (R53, R54, R66, R72).
-/

namespace Sys2Proof

/-- C5h behind any legacy prefixes is rejected (R53). -/
theorem decode_twoByteVex (legacy : List LegacyPrefix) (rest : List Byte) :
    decode (legacy.map LegacyPrefix.toByte ++ 0xC5#8 :: rest) = .reject .twoByteVex := by
  rw [decode_append _ _ _ (by decide)]
  simp [decodeBody]

/-- Behind any legacy prefixes C4h begins a VEX form (R52, R69 step 2). -/
theorem decode_vex (legacy : List LegacyPrefix) (rest : List Byte) :
    decode (legacy.map LegacyPrefix.toByte ++ 0xC4#8 :: rest) = decodeVex legacy rest := by
  rw [decode_append _ _ _ (by decide)]
  simp [decodeBody]

/-- Behind any legacy prefixes 62h begins an EVEX form (R54, R69 step 2). -/
theorem decode_evex (legacy : List LegacyPrefix) (rest : List Byte) :
    decode (legacy.map LegacyPrefix.toByte ++ 0x62#8 :: rest) = decodeEvex legacy rest := by
  rw [decode_append _ _ _ (by decide)]
  simp [decodeBody]

/-- A one-bit field is its bit. -/
theorem extractLsb'_one (c : Byte) (k : Nat) : c.extractLsb' k 1 = BitVec.ofBool (c.getLsbD k) := by
  simp [Machine.extractLsb'_eq_iff]

/-- VEX.W = 1 is no VEX pattern (R66). -/
theorem isVexPattern_of_w {p1 p2 : Byte} (op : Byte) (h : p2.getLsbD 7 = true) :
    isVexPattern p1 p2 op = false := by
  simp [isVexPattern, extractLsb'_one, h]

/-- A reserved bit of P0 set, or the fixed bit of P1 clear, is no EVEX pattern (R54). -/
theorem isEvexPattern_of_fixedBit {p0 p1 : Byte}
    (h : p0.getLsbD 2 = true ∨ p0.getLsbD 3 = true ∨ p1.getLsbD 2 = false) :
    isEvexPattern p0 p1 = false := by
  rw [Bool.eq_false_iff]
  intro hpat
  simp only [isEvexPattern, Bool.and_eq_true, decide_eq_true_eq, Machine.extractLsb'_eq_iff] at hpat
  obtain ⟨⟨hmap, hfixed⟩, -⟩ := hpat
  obtain h | h | h := h
  · exact absurd (h.symm.trans (hmap 2 (by decide))) (by decide)
  · exact absurd (h.symm.trans (hmap 3 (by decide))) (by decide)
  · exact absurd (h.symm.trans (hfixed 0 (by decide))) (by decide)

/-- EVEX bytes that are no pattern, or whose W and opcode are those of no row, are rejected (R54, R66). -/
theorem exists_decodeEvex_eq_reject {p0 p1 op : Byte} (legacy : List LegacyPrefix) (p2 : Byte)
    (rest : List Byte) (h : isEvexPattern p0 p1 = true →
      ¬ (p1.getLsbD 7 = false ∧ op = 0x36#8) ∧ ¬ (p1.getLsbD 7 = true ∧ op = 0x8D#8)) :
    ∃ why, decodeEvex legacy (p0 :: p1 :: p2 :: op :: rest) = .reject why := by
  cases hpat : isEvexPattern p0 p1 with
  | false => exact ⟨.evexFixedBits, by simp [decodeEvex, hpat]⟩
  | true =>
    have hw (c : Bool) : BitVec.ofBool c = 0#1 ↔ c = false := by cases c <;> decide
    have hw' (c : Bool) : BitVec.ofBool c = 1#1 ↔ c = true := by cases c <;> decide
    obtain ⟨hvpermd, hvpermw⟩ := h hpat
    exact ⟨.evexOpcode, by
      simp only [decodeEvex, hpat, if_true, extractLsb'_one, hw, hw', hvpermd, hvpermw, if_false]⟩

end Sys2Proof
end

section
/-!
SUPPORT. What the legacy prefixes do (R51), the #UD conditions of an encoding (R64, R65, R136), an element
of a completed form (R92 to R96), and how far a run can go (R163).
-/

namespace Sys2Proof.Machine

open Sys2Proof.Safety

/-! ### What the legacy prefixes do (R51) -/

/-- The segment base of the prefixes is that of the later ones, or else that of the first. -/
theorem lastSeg_cons (p : LegacyPrefix) (ps : List LegacyPrefix) :
    lastSeg (p :: ps) = (lastSeg ps).or (lastSeg [p]) := by
  cases h : lastSeg ps <;> simp [lastSeg, h]

theorem lastSeg_append (ps qs : List LegacyPrefix) :
    lastSeg (ps ++ qs) = (lastSeg qs).or (lastSeg ps) := by
  induction ps with
  | nil => simp [lastSeg]
  | cons p ps ih => rw [List.cons_append, lastSeg_cons, ih, lastSeg_cons p ps, Option.or_assoc]

/-- Prefixes other than 64h and 65h name no segment base (R51). -/
theorem lastSeg_eq_none {ps : List LegacyPrefix} (h : ∀ p ∈ ps, p ≠ .fs ∧ p ≠ .gs) :
    lastSeg ps = none := by
  induction ps with
  | nil => rfl
  | cons p ps ih =>
    obtain ⟨hp, hps⟩ := List.forall_mem_cons.1 h
    rw [lastSeg_cons, ih hps]
    cases p <;> simp_all [lastSeg]

/-- Prefixes that name no segment base can be taken out (R51). -/
theorem lastSeg_filter {keep : LegacyPrefix → Bool} (h : ∀ p, keep p = false → lastSeg [p] = none)
    (ps : List LegacyPrefix) : lastSeg (ps.filter keep) = lastSeg ps := by
  induction ps with
  | nil => rfl
  | cons p ps ih =>
    rw [lastSeg_cons p ps, ← ih]
    cases hp : keep p with
    | true => rw [List.filter_cons_of_pos hp, lastSeg_cons]
    | false => rw [List.filter_cons_of_neg (by simp [hp]), h p hp, Option.or_none]

/-- Prefixes other than 67h can be taken out without a change of the address size (R51). -/
theorem addrSize32_filter {keep : LegacyPrefix → Bool} (h : keep .addr32 = true)
    (ps : List LegacyPrefix) : addrSize32 (ps.filter keep) = addrSize32 ps := by
  rw [Bool.eq_iff_iff, addrSize32_iff, addrSize32_iff, List.mem_filter]
  simp [h]

/-- A REX byte that is not the last of the legacy prefixes is ignored (R51). -/
theorem badLegacy_rex_cons (before after : List LegacyPrefix) (w : BitVec 4) (p : LegacyPrefix) :
    badLegacy (before ++ .rex w :: p :: after) = badLegacy (before ++ p :: after) := by
  have hlast : (before ++ .rex w :: p :: after).getLast? = (before ++ p :: after).getLast? := by
    simp [List.getLast?_append, List.getLast?_cons_cons]
  simp [badLegacy, rexLast, hlast, invalidLegacy]

/-- 66h, F2h, F3h or F0h wherever it stands is invalid before VEX and EVEX (R51). -/
theorem badLegacy_of_mem {p : LegacyPrefix} {legacy : List LegacyPrefix} (hmem : p ∈ legacy)
    (hp : invalidLegacy p = true) : badLegacy legacy = true := by
  have : legacy.any invalidLegacy = true := List.any_eq_true.2 ⟨p, hmem, hp⟩
  simp [badLegacy, this]

/-- A REX byte directly before VEX or EVEX is invalid (R51). -/
theorem badLegacy_append_rex (before : List LegacyPrefix) (w : BitVec 4) :
    badLegacy (before ++ [.rex w]) = true := by
  simp [badLegacy, rexLast]

/-! ### The #UD conditions of an encoding (R51, R64, R65, R136) -/

/-- Invalid legacy prefixes are a #UD condition of every instruction (R51). -/
theorem raisesUD_of_badLegacy {i : Instr} (cfg : Launch) (h : badLegacy (legacyOf i) = true) :
    raisesUD cfg i = true := by
  have evex (hasBroadcast : Bool) {e : EvexFields} (he : badLegacy e.legacy = true) :
      evexIllegal hasBroadcast e = true := by simp [evexIllegal, he]
  cases i with
  | vpermdVex256 e => simp [raisesUD, udVpermdVex256, show badLegacy e.legacy = true from h]
  | vpermdEvex256 e => simp [raisesUD, udVpermdEvex256, evex true h]
  | vpermdEvex512 e => simp [raisesUD, udVpermdEvex512, evex true h]
  | vpermwEvex128 e => simp [raisesUD, udVpermwEvex128, evex false h]
  | vpermwEvex256 e => simp [raisesUD, udVpermwEvex256, evex false h]
  | vpermwEvex512 e => simp [raisesUD, udVpermwEvex512, evex false h]
  | udVpermdVexL0 e => rfl
  | udVpermdEvexLL00 e => rfl
  | udVpermdEvexLL11 e => rfl
  | udVpermwEvexLL11 e => rfl

section EvexIllegal

variable {e : EvexFields} (s : State) (hlen : e.length ≤ 15)

include hlen

/-- An encoding condition for #UD on an EVEX form of VPERMD is #UD (R111, R112, R136). -/
theorem exec_vpermd_of_evexIllegal (h : evexIllegal true e = true) :
    exec (.vpermdEvex256 e) s = .fault .invalidOpcode ∧
      exec (.vpermdEvex512 e) s = .fault .invalidOpcode :=
  ⟨exec_of_raisesUD (by simp [raisesUD, udVpermdEvex256, h]) hlen,
    exec_of_raisesUD (by simp [raisesUD, udVpermdEvex512, h]) hlen⟩

/-- An encoding condition for #UD on a form of VPERMW is #UD (R120 to R122, R136). -/
theorem exec_vpermw_of_evexIllegal (h : evexIllegal false e = true) :
    exec (.vpermwEvex128 e) s = .fault .invalidOpcode ∧
      exec (.vpermwEvex256 e) s = .fault .invalidOpcode ∧
      exec (.vpermwEvex512 e) s = .fault .invalidOpcode :=
  ⟨exec_of_raisesUD (by simp [raisesUD, udVpermwEvex128, h]) hlen,
    exec_of_raisesUD (by simp [raisesUD, udVpermwEvex256, h]) hlen,
    exec_of_raisesUD (by simp [raisesUD, udVpermwEvex512, h]) hlen⟩

end EvexIllegal

/-- EVEX.b where it means no broadcast is a #UD condition (R65). -/
theorem evexIllegal_of_b {hasBroadcast : Bool} {e : EvexFields} (hb : e.b = true)
    (h : (hasBroadcast && isMem e.src2) = false) : evexIllegal hasBroadcast e = true := by
  simp [evexIllegal, hb, h]

/-- Zeroing without a writemask is a #UD condition (R64). -/
theorem evexIllegal_of_z (hasBroadcast : Bool) {e : EvexFields} (hz : e.z = true)
    (haaa : e.aaa = 0#3) : evexIllegal hasBroadcast e = true := by
  simp [evexIllegal, hz, haaa]

/-- The fault reported of #UD and the length limit, where one applies, is the instruction's (R139 line 2). -/
theorem exec_of_report_decodeFaults {i : Instr} {s : State} {f : Fault}
    (h : s.report (decodeFaults (raisesUD s.cfg i) i.length) = some f) : exec i s = .fault f := by
  obtain ⟨p, scale, hrun, -, hlen, -, -, hud, -⟩ | ⟨hrun, hud, -⟩ := exec_shape i s
  · rw [← hud, ← hlen] at h
    simp [hrun, Permute.run, h, raise]
  · rw [hud] at h
    simp [hrun, runIllegal, h, raise]

/-! ### An element of a completed form (R93 to R95) -/

/-- Where 2^(n+1) is the number of elements every index is in range (R93, R98). -/
theorem Form.index_lt {f : Form} (h : 2 ^ (f.n + 1) = f.kl) (s1 : BitVec f.vl) (j : Nat) :
    f.index s1 j < f.kl :=
  h ▸ (s1.extractLsb' (f.w * j) (f.n + 1)).isLt

/-- Element `j` of the destination of a completed form (R95, R96). -/
theorem Permute.elem_dest_of_run_eq_next {p : Permute} {scale : Nat} {s t : State} {j : Nat}
    (h : p.run scale s = .next t) (hj : j < p.form.kl) :
    elem (t.readZmm p.dest) p.form.w j =
      if s.selected p.aaa j then
        elem (p.data scale s) p.form.w (p.form.index ((s.readZmm p.src1).setWidth p.form.vl) j)
      else if p.z then 0#p.form.w else elem (s.readZmm p.dest) p.form.w j := by
  obtain ⟨-, -, -, -, hp, rfl⟩ := Permute.run_eq_next.1 h
  obtain ⟨hvl, -⟩ := Permute.present_iff.1 hp
  have hmax : s.cfg.maxVl.bits ≤ 512 := by cases s.cfg.maxVl <;> decide
  have hbits : p.form.w * j + p.form.w ≤ p.form.vl := Nat.mul_le_mul_left p.form.w hj
  rw [p.complete_dest scale s hvl, elem_setWidth _ _ (hbits.trans (hvl.trans hmax)),
    Form.elem_result _ _ _ _ _ _ hj, elem_setWidth _ _ hbits]

/-- An element whose mask bit is clear is zero under zeroing and else as before (R95). -/
theorem Permute.elem_dest_of_masked_off {p : Permute} {scale : Nat} {s t : State} {j : Nat}
    (haaa : p.aaa ≠ 0#3) (hbit : (s.readMask p.aaa).getLsbD j = false)
    (h : p.run scale s = .next t) (hj : j < p.form.kl) :
    elem (t.readZmm p.dest) p.form.w j =
      if p.z then 0#p.form.w else elem (s.readZmm p.dest) p.form.w j := by
  have hsel : s.selected p.aaa j = false := by simp [State.selected, haaa, hbit]
  rw [Permute.elem_dest_of_run_eq_next h hj, hsel]
  rfl

/-- Under broadcast a selected element is the doubleword in memory, cut to the element width (R65, R92). -/
theorem Permute.elem_dest_of_broadcast {p : Permute} {scale : Nat} {s t : State} {m : MemOperand}
    {j : Nat} (hb : p.bcast = true) (hsrc : p.src2 = .mem m) (hkl : 2 ^ (p.form.n + 1) = p.form.kl)
    (hsel : p.aaa = 0#3 ∨ (s.readMask p.aaa).getLsbD j = true)
    (h : p.run scale s = .next t) (hj : j < p.form.kl) :
    elem (t.readZmm p.dest) p.form.w j =
      (s.mem.readLE 4 (s.effAddr p.legacy scale (p.next s) m)).setWidth p.form.w := by
  have hsel' : s.selected p.aaa j = true := by simpa [State.selected] using hsel
  rw [Permute.elem_dest_of_run_eq_next h hj, hsel', if_pos rfl]
  simp only [Permute.data, hsrc, hb, if_true]
  rw [elem_pack _ _ _ (Form.index_lt hkl _ j)]

/-! ### How far a run can go (R71, R163) -/

/-- A completed step advances `rip` by at least five bytes and not past CODE_END, which is constant. -/
theorem step_advances {s t : State} (hle : s.rip.toNat ≤ s.cfg.codeEnd.toNat)
    (h : step s = .next t) :
    s.rip.toNat + 5 ≤ t.rip.toNat ∧ t.rip.toNat ≤ t.cfg.codeEnd.toNat ∧ t.cfg = s.cfg := by
  obtain ⟨i, -, -, hne, -, hplace, -, hexec⟩ := step_eq_next h
  obtain ⟨-, hcfg, hrip, -⟩ := exec_next_keeps hexec
  rw [hcfg, hrip]
  refine ⟨?_, State.toNat_advance_le_codeEnd hplace hne hle, rfl⟩
  rw [State.toNat_advance hplace]
  exact Nat.add_le_add_left (five_le_length i) _

/-- A run that completes has five bytes of code for each of its steps. -/
theorem five_mul_le_of_run_eq_next {n : Nat} {s t : State} (hle : s.rip.toNat ≤ s.cfg.codeEnd.toNat)
    (h : Sys2Proof.core.run n s = .next t) : s.rip.toNat + 5 * n ≤ s.cfg.codeEnd.toNat := by
  induction n generalizing s with
  | zero => exact hle
  | succ n ih =>
    obtain ⟨u, hstep, hrun⟩ := run_succ_eq_next h
    obtain ⟨hadvance, hle', hcfg⟩ := step_advances hle hstep
    have := ih hle' hrun
    rw [hcfg] at this
    omega

end Sys2Proof.Machine
end

section
/-!
PROOFS. The statements about encodings and their legacy prefixes, masking and broadcast fields, the length
limit, and the end of a run (R50 to R71, R90, R131, R136, R139, R163).
-/

namespace Sys2Proof.Proofs

open Sys2Proof.Machine Sys2Proof.Safety

/-- Settles O1, from the round trip of each form. -/
theorem decodeOfEncodeIsTheInstruction : Obligations.DecodeOfEncodeIsTheInstruction :=
  fun _ rest h => decode_encode_append h rest

/-- Settles O57: a run that completed would have more bytes behind it than there are up to CODE_END. -/
theorem everyRunEnds : Obligations.EveryRunEnds := by
  intro s t hle h
  have := five_mul_le_of_run_eq_next hle h
  omega

/-- Settles O2, from what the decoder answers. -/
theorem decodedInstructionIsWellFormedAndMeasured :
    Obligations.DecodedInstructionIsWellFormedAndMeasured := by
  intro bytes rest i h
  obtain ⟨consumed, heq, hwf, hlen, -, -⟩ := decode_eq_ok h
  exact ⟨hwf, consumed, heq, hlen⟩

/-- Settles O4: SRC2 has at most five bytes after ModRM. -/
theorem encodedLengthBounds : Obligations.EncodedLengthBounds := by
  intro i
  rw [length_encode]
  cases i
  all_goals
    rename_i e
    have := length_regMem_le e.src2
    simp only [Instr.length, VexFields.length, EvexFields.length]
    omega

/-- Settles O6, from the branch of the decoder for C5h. -/
theorem twoByteVexIsRefused : Obligations.TwoByteVexIsRefused :=
  decode_twoByteVex

/-- Settles O7: no row has the W bit and opcode, or the pattern does not match. -/
theorem neighbouringEncodingsAreRefused : Obligations.NeighbouringEncodingsAreRefused := by
  intro legacy p0 p1 p2 op rest
  simp only [decode_vex, decode_evex]
  refine ⟨fun hw => ⟨.vexRow, ?_⟩, fun hw => ?_, fun hw => ?_, fun hfixed => ?_⟩
  · simp [decodeVex, isVexPattern_of_w _ hw]
  · exact exists_decodeEvex_eq_reject legacy p2 rest fun _ => by simp only [hw]; decide
  · exact exists_decodeEvex_eq_reject legacy p2 rest fun _ => by simp only [hw]; decide
  · exact exists_decodeEvex_eq_reject legacy p2 rest fun hpat => by
      simp [isEvexPattern_of_fixedBit hfixed] at hpat

/-- Settles O8: the address depends on 67h and the last of 64h and 65h alone, and a REX byte counts
only as the last of the legacy prefixes. -/
theorem legacyPrefixEffects : Obligations.LegacyPrefixEffects := by
  refine ⟨fun s legacy scale next m => ?_, fun before after h => ?_, badLegacy_rex_cons⟩
  · rw [State.effAddr, State.effAddr, addrSize32_filter (by decide), lastSeg_filter]
    intro p hp
    cases p <;> simp [lastSeg] at hp ⊢
  · simp only [lastSeg_append, lastSeg_cons _ after, lastSeg_eq_none h]
    exact ⟨rfl, rfl⟩

/-- Settles O9: each of the prefixes is a #UD condition of every instruction. -/
theorem invalidLegacyPrefixRaisesUD : Obligations.InvalidLegacyPrefixRaisesUD := by
  intro i s hlen hprefix
  refine exec_of_raisesUD (raisesUD_of_badLegacy _ ?_) hlen
  obtain h | h | h | h | ⟨before, w, h⟩ := hprefix
  · exact badLegacy_of_mem h rfl
  · exact badLegacy_of_mem h rfl
  · exact badLegacy_of_mem h rfl
  · exact badLegacy_of_mem h rfl
  · rw [h]
    exact badLegacy_append_rex before w

/-- Settles O18, from the elements of a completed form. -/
theorem maskedOffElements : Obligations.MaskedOffElements := by
  intro e s t j haaa hbit
  have masked {f : Form} {ud : Bool} {scale : Nat} (h : (ofEvex f ud e).run scale s = .next t)
      (hj : j < f.kl) : elem (t.readZmm e.dest) f.w j =
        if e.z then 0#f.w else elem (s.readZmm e.dest) f.w j :=
    Permute.elem_dest_of_masked_off (p := ofEvex f ud e) haaa hbit h hj
  exact ⟨masked, masked, masked, masked, masked⟩

/-- Settles O25: every index is in range, and every element of the replicated vector is the doubleword. -/
theorem broadcastGivesOneDoubleword : Obligations.BroadcastGivesOneDoubleword := by
  intro e s t m j hb hsrc hsel
  have replicated {f : Form} {ud : Bool} (hkl : 2 ^ (f.n + 1) = f.kl)
      (h : (ofEvex f ud e).run (evexScale f e.b) s = .next t) (hj : j < f.kl) :
      elem (t.readZmm e.dest) f.w j =
        (s.mem.readLE 4
          (s.effAddr e.legacy 4 (s.rip + BitVec.ofNat 64 e.length) m)).setWidth f.w := by
    have := Permute.elem_dest_of_broadcast (p := ofEvex f ud e) hb hsrc hkl hsel h hj
    rwa [evexScale, if_pos hb] at this
  constructor
  · intro h hj
    simpa using replicated (f := vpermd256) rfl h hj
  · intro h hj
    simpa using replicated (f := vpermd512) rfl h hj

/-- Settles O34: EVEX.b means broadcast only in VPERMD with a memory operand. -/
theorem broadcastBitWithoutBroadcastRaisesUD : Obligations.BroadcastBitWithoutBroadcastRaisesUD :=
  fun _ s hb hlen =>
    ⟨fun _ hr => exec_vpermd_of_evexIllegal s hlen (evexIllegal_of_b hb (by simp [hr, isMem])),
      exec_vpermw_of_evexIllegal s hlen (evexIllegal_of_b hb rfl)⟩

/-- Settles O35: zeroing without a writemask is illegal with and without a broadcast form. -/
theorem zeroingWithoutMaskRaisesUD : Obligations.ZeroingWithoutMaskRaisesUD := by
  intro e s hz haaa hlen
  obtain ⟨hd256, hd512⟩ := exec_vpermd_of_evexIllegal s hlen (evexIllegal_of_z true hz haaa)
  exact ⟨hd256, hd512, exec_vpermw_of_evexIllegal s hlen (evexIllegal_of_z false hz haaa)⟩

/-- Settles O39: the reported fault is one of the line's, #GP(0) among them. -/
theorem overlongInstructionFaults : Obligations.OverlongInstructionFaults := by
  intro i s hlen
  constructor
  · intro hu
    exact exec_of_report_decodeFaults (by simp [decodeFaults, hu, hlen])
  · intro hu
    obtain ⟨f, hf⟩ := State.exists_report (s := s) (fs := decodeFaults (raisesUD s.cfg i) i.length)
      (by simp [hu])
    rw [exec_of_report_decodeFaults hf]
    obtain ⟨rfl, -⟩ | ⟨rfl, -⟩ := mem_decodeFaults.1 (State.mem_of_report hf)
    · exact .inl rfl
    · exact .inr rfl

/-- Settles O5, by running the decoder on each word. -/
theorem exampleWordsDecode : Obligations.ExampleWordsDecode := by
  unfold Obligations.ExampleWordsDecode
  decide

/-- Settles O33: the two rows have a #UD condition whatever the state. -/
theorem reservedLengthRaisesUD : Obligations.ReservedLengthRaisesUD :=
  fun _ _ hlen => ⟨exec_of_raisesUD rfl hlen, exec_of_raisesUD rfl hlen⟩

/-- Settles O49: fetching gives the decoded instruction. -/
theorem stepRunsTheDecodedInstruction : Obligations.StepRunsTheDecodedInstruction :=
  fun _ _ _ hmode hne hdec => step_eq_exec hmode hne hdec

end Sys2Proof.Proofs
end

section
/-!
SUPPORT. The result of a form where every element is selected, and what the result depends on of the
operands (R92 to R96, R99, R100).
-/

namespace Sys2Proof.Machine

open Sys2Proof.Safety

/-! ### The result vector (R93, R95) -/

/-- Where every element is selected the result is SRC2 permuted, whatever DEST and the masking kind. -/
theorem Form.result_of_selected {f : Form} {sel : Nat → Bool} (hsel : ∀ j, j < f.kl → sel j = true)
    (s1 s2 d0 : BitVec f.vl) (z : Bool) :
    f.result s1 s2 d0 sel z = pack f.w f.kl fun j => elem s2 f.w (f.index s1 j) := by
  refine eq_of_elem_eq fun j hj => ?_
  rw [f.elem_result _ _ _ _ _ hj, hsel j hj, if_pos rfl, elem_pack _ _ _ hj]

/-- Of SRC1 the result depends on the indices alone (R93). -/
theorem Form.result_congr_index {f : Form} {s1 s1' : BitVec f.vl}
    (h : ∀ j, j < f.kl → f.index s1' j = f.index s1 j) (s2 d0 : BitVec f.vl) (sel : Nat → Bool)
    (z : Bool) : f.result s1' s2 d0 sel z = f.result s1 s2 d0 sel z := by
  refine eq_of_elem_eq fun j hj => ?_
  rw [f.elem_result _ _ _ _ _ hj, f.elem_result _ _ _ _ _ hj, h j hj]

/-- The index of an element is read from the register itself where its field fits the element (R93). -/
theorem Form.index_setWidth {f : Form} (hn : f.n + 1 ≤ f.w) (v : BitVec 512) {j : Nat} (hj : j < f.kl) :
    f.index (v.setWidth f.vl) j = (v.extractLsb' (f.w * j) (f.n + 1)).toNat := by
  have hfits : f.w * j + (f.n + 1) ≤ f.vl :=
    (Nat.add_le_add_left hn _).trans (Nat.mul_le_mul_left f.w hj)
  rw [Form.index, extractLsb'_setWidth_of_le v hfits]

/-- An element of a vector is the low part of the vector shifted right by its position (R99). -/
theorem elem_eq_setWidth_ushiftRight {vl : Nat} (v : BitVec vl) (w j : Nat) :
    elem v w j = (v >>> (j * w)).setWidth w := by
  rw [Nat.mul_comm]
  refine BitVec.eq_of_getLsbD_eq fun i hi => ?_
  rw [getLsbD_elem, BitVec.getLsbD_setWidth, BitVec.getLsbD_ushiftRight]

/-! ### The destination of a completed form (R95, R96) -/

/-- Without a writemask every element is selected (R94). -/
@[simp] theorem State.selected_zero (s : State) (j : Nat) : s.selected 0#3 j = true := rfl

section Completed

variable {p : Permute} {scale : Nat} {s t : State}

/-- A completed form has zero in its destination from its vector length on (R96). -/
theorem Permute.getLsbD_complete_dest_of_vl_le (hvl : p.form.vl ≤ s.cfg.maxVl.bits) {b : Nat}
    (hb : p.form.vl ≤ b) : ((p.complete scale s).readZmm p.dest).getLsbD b = false := by
  rw [p.complete_dest scale s hvl, BitVec.getLsbD_setWidth, BitVec.getLsbD_of_ge _ b hb,
    Bool.and_false]

/-- A completed form without a writemask has SRC2 permuted in its destination (R95, R96). -/
theorem Permute.dest_of_unmasked (haaa : p.aaa = 0#3) (h : p.run scale s = .next t) :
    t.readZmm p.dest =
      (pack p.form.w p.form.kl fun j => elem (p.data scale s) p.form.w
        (p.form.index ((s.readZmm p.src1).setWidth p.form.vl) j)).setWidth 512 := by
  obtain ⟨-, -, -, -, hp, rfl⟩ := Permute.run_eq_next.1 h
  obtain ⟨hvl, -⟩ := Permute.present_iff.1 hp
  rw [p.complete_dest scale s hvl, haaa, Form.result_of_selected fun j _ => s.selected_zero j]

end Completed

/-! ### SRC2 of the VEX form (R92, R99) -/

/-- SRC2 of VEX.256 VPERMD is the vector the source shifts (R110). -/
theorem data_ofVex_vpermd256 (ud : Bool) (e : VexFields) (s : State) :
    (ofVex vpermd256 ud e).data 1 s = sourceVector256 s e := by
  cases hsrc : e.src2 with
  | reg r =>
    simp only [Permute.data, ofVex, widen, sourceVector256, hsrc]
    rfl
  | mem m =>
    simp only [Permute.data, Permute.next, ofVex, widen, sourceVector256, hsrc]
    exact BitVec.setWidth_eq _

/-- A VEX form and an EVEX form without broadcast read the same SRC2 from the same register or
address (R99). -/
theorem data_ofVex_eq_data_ofEvex {f : Form} {e : VexFields} {e' : EvexFields} {s : State}
    {scale scale' : Nat} (ud ud' : Bool) (hsrc : e'.src2 = widen e.src2) (hb : e'.b = false)
    (haddr : ∀ m, e.src2 = .mem m →
      s.effAddr e.legacy scale (s.rip + BitVec.ofNat 64 e.length) m =
        s.effAddr e'.legacy scale' (s.rip + BitVec.ofNat 64 e'.length) m) :
    (ofVex f ud e).data scale s = (ofEvex f ud' e').data scale' s := by
  cases h : e.src2 with
  | reg r => simp [Permute.data, ofVex, ofEvex, widen, hsrc, h]
  | mem m => simp [Permute.data, Permute.next, ofVex, ofEvex, widen, hsrc, h, hb, haddr m h]

/-! ### Overwriting the index register (R93, R97) -/

/-- A register write keeps what of it lies below a vector length the machine has (R13). -/
theorem setWidth_clipZmm {vl : Nat} {cfg : Launch} (v : BitVec 512) (h : vl ≤ cfg.maxVl.bits) :
    (clipZmm cfg v).setWidth vl = v.setWidth vl := by
  refine BitVec.eq_of_getLsbD_eq fun b hb => ?_
  rw [BitVec.getLsbD_setWidth, BitVec.getLsbD_setWidth, getLsbD_clipZmm]
  simp [hb.trans_le h]

section IndexRegister

variable {p : Permute} {s : State} {v : BitVec 512} (scale : Nat)

/-- SRC2 is read from no vector register but its own (R92). -/
theorem Permute.data_writeZmm_of_ne {r : BitVec 5} (h : p.src2 ≠ .reg r) :
    p.data scale (s.writeZmm r v) = p.data scale s := by
  cases hsrc : p.src2 with
  | reg r' =>
    have hne : r' ≠ r := fun e => h (hsrc.trans (congrArg RegMem.reg e))
    simp only [Permute.data, hsrc, State.readZmm_writeZmm_of_ne _ _ _ hne]
  | mem m =>
    have haddr (next : Word64) : (s.writeZmm r v).effAddr p.legacy scale next m =
        s.effAddr p.legacy scale next m := State.effAddr_congr rfl rfl _ _ _ _
    simp only [Permute.data, Permute.next, hsrc, haddr, State.writeZmm_mem, State.writeZmm_rip]

/-- A value with the same indices in a register that is the index register alone leaves the same
destination (R93). -/
theorem Permute.complete_dest_writeZmm_src1 (hdest : p.src1 ≠ p.dest) (hsrc : p.src2 ≠ .reg p.src1)
    (hvl : p.form.vl ≤ s.cfg.maxVl.bits)
    (hindex : ∀ j, j < p.form.kl → p.form.index (v.setWidth p.form.vl) j =
      p.form.index ((s.readZmm p.src1).setWidth p.form.vl) j) :
    (p.complete scale (s.writeZmm p.src1 v)).readZmm p.dest =
      (p.complete scale s).readZmm p.dest := by
  have hsel : (s.writeZmm p.src1 v).selected p.aaa = s.selected p.aaa := rfl
  rw [p.complete_dest scale s hvl, p.complete_dest scale (s.writeZmm p.src1 v) hvl,
    State.readZmm_writeZmm_self, setWidth_clipZmm v hvl, p.data_writeZmm_of_ne scale hsrc,
    State.readZmm_writeZmm_of_ne _ _ _ hdest.symm, hsel, Form.result_congr_index hindex]

end IndexRegister

end Sys2Proof.Machine
end

section
/-!
PROOFS. The statements about the permutation all six instructions share: indices, the zeroed upper bits,
and the equivalences of the forms (R93 to R100).
-/

namespace Sys2Proof.Proofs

open Sys2Proof.Machine Sys2Proof.Safety

/-- Settles O17: the result is zero-extended from the vector length. -/
theorem upperBitsAreZeroedWhateverTheMask : Obligations.UpperBitsAreZeroedWhateverTheMask := by
  intro i s t b h hb
  obtain ⟨p, scale, hdest, -, hvl, -, -, -, -, -, hp, rfl⟩ := exec_eq_next h
  obtain ⟨hmax, -⟩ := Permute.present_iff.1 hp
  rw [← hdest]
  exact Permute.getLsbD_complete_dest_of_vl_le hmax (hvl ▸ hb)

/-- Settles O19: the index chooses an element of SRC2, which is a shift of it. -/
theorem vexShiftFormulaAgrees : Obligations.VexShiftFormulaAgrees := by
  intro e s t j h hj
  have helem := Permute.elem_dest_of_run_eq_next
    (p := ofVex vpermd256 (udVpermdVex256 s.cfg e) e) h hj
  rw [data_ofVex_vpermd256] at helem
  calc elem (t.readZmm (e.dest.setWidth 5)) 32 j
      = elem (sourceVector256 s e) 32
          (vpermd256.index ((s.readZmm (e.src1.setWidth 5)).setWidth vpermd256.vl) j) := helem
    _ = _ := by rw [Form.index_setWidth (by decide) _ hj, elem_eq_setWidth_ushiftRight]

/-- Settles O20: without a writemask both destinations are the same SRC2 permuted by the same indices. -/
theorem vexAndUnmaskedEvexAgree : Obligations.VexAndUnmaskedEvexAgree := by
  intro e e' s t t' hdest hsrc1 hsrc2 haaa hb haddr h h'
  have hvex := Permute.dest_of_unmasked (p := ofVex vpermd256 (udVpermdVex256 s.cfg e) e) rfl h
  have hevex := Permute.dest_of_unmasked (p := ofEvex vpermd256 (udVpermdEvex256 s.cfg e') e') haaa h'
  have hscale : evexScale vpermd256 e'.b = 32 := by rw [hb]; rfl
  rw [data_ofVex_eq_data_ofEvex _ (udVpermdEvex256 s.cfg e') hsrc2 hb (hscale ▸ haddr)] at hvex
  simp only [ofVex, ofEvex, hdest, hsrc1] at hvex hevex
  exact hvex.trans hevex.symm

/-- Settles O21: every element of the result is the element of SRC2 at its index. -/
theorem repeatedAndIdentityIndices : Obligations.RepeatedAndIdentityIndices := by
  intro f s1 s2 d0 z
  rw [Form.result_of_selected fun _ _ => rfl]
  constructor
  · intro c hc j hj
    rw [elem_pack _ _ _ hj, hc j hj]
  · intro hid
    refine eq_of_elem_eq fun j hj => ?_
    rw [elem_pack _ _ _ hj, hid j hj]

/-- Settles O24: the four low bits of a doubleword are all of it that the index reads. -/
theorem highIndexBitsAreIgnored : Obligations.HighIndexBitsAreIgnored := by
  intro e s t t' v hdest hsrc hlow h h'
  obtain ⟨-, -, -, -, hp, rfl⟩ := Permute.run_eq_next.1 h
  obtain ⟨-, -, -, -, -, rfl⟩ := Permute.run_eq_next.1 h'
  obtain ⟨hvl, -⟩ := Permute.present_iff.1 hp
  refine Permute.complete_dest_writeZmm_src1 (p := ofEvex vpermd512 (udVpermdEvex512 s.cfg e) e) _
    hdest hsrc hvl fun j hj => ?_
  have hn : vpermd512.n + 1 ≤ vpermd512.w := by decide
  exact (Form.index_setWidth hn v hj).trans
    ((congrArg BitVec.toNat (hlow j hj)).trans (Form.index_setWidth hn _ hj).symm)

/-- Settles O22: the index field of each shape has as many values as there are elements. -/
theorem everyIndexIsInRange : Obligations.EveryIndexIsInRange := by
  have hfield : ∀ f ∈ [vpermd256, vpermd512, vpermw128, vpermw256, vpermw512],
      2 ^ (f.n + 1) = f.kl := by decide
  exact fun f hf => Form.index_lt (hfield f hf)

end Sys2Proof.Proofs
end

section
/-!
SUPPORT. The elements of a completed form in the terms of the state at the start of the step: SRC2 element
by element (R31, R92), the destination (R93 to R96), and when a legal, enabled form completes (R90).
-/

namespace Sys2Proof.Machine

open Sys2Proof.Safety

/-! ### Elements of SRC2 (R31, R92) -/

/-- The `n` bytes from the `k`-th on of a read are a read of their own, from the `k`-th address (R31). -/
theorem Memory.extractLsb'_readLE_bytes (m : Memory) {l k n : Nat} (a : Word64) (h : k + n ≤ l) :
    (m.readLE l a).extractLsb' (8 * k) (8 * n) = m.readLE n (a + BitVec.ofNat 64 k) := by
  refine eq_of_elem_eq fun t ht => ?_
  have haddr : (a.toNat + (k + t)) % 2 ^ 64 = ((a + BitVec.ofNat 64 k).toNat + t) % 2 ^ 64 := by
    rw [BitVec.toNat_add, BitVec.toNat_ofNat, Nat.add_mod_mod, Nat.mod_add_mod, Nat.add_assoc]
  calc elem ((m.readLE l a).extractLsb' (8 * k) (8 * n)) 8 t
      = (m.readLE l a).extractLsb' (8 * (k + t)) 8 := by
        refine BitVec.eq_of_getLsbD_eq fun b hb => ?_
        have hin : 8 * t + b < 8 * n := by omega
        simp [elem, hb, hin, Nat.mul_add, Nat.add_assoc]
    _ = m.readByte ((a.toNat + (k + t)) % 2 ^ 64) := m.extractLsb'_readLE a (by omega)
    _ = elem (m.readLE n (a + BitVec.ofNat 64 k)) 8 t := by
        rw [haddr, elem, m.extractLsb'_readLE _ ht]

/-- An element of whole bytes of a read is a read of its own (R31, R92). -/
theorem Memory.elem_readLE (m : Memory) {l w i : Nat} (a : Word64) (hw : 8 ∣ w)
    (h : w * i + w ≤ 8 * l) :
    elem (m.readLE l a) w i = (m.readLE (w / 8) (a + BitVec.ofNat 64 (i * (w / 8)))).setWidth w := by
  obtain ⟨c, rfl⟩ := hw
  rw [Nat.mul_div_cancel_left c (by decide), BitVec.setWidth_eq, elem, Nat.mul_assoc, Nat.mul_comm i]
  rw [Nat.mul_assoc] at h
  exact m.extractLsb'_readLE_bytes a (by omega)

/-- The elements of a form are whole bytes, and its index field lies in an element and has one value for
each of them (R10, R93). -/
abbrev Form.Regular (f : Form) : Prop := 8 ∣ f.w ∧ f.n + 1 ≤ f.w ∧ 2 ^ (f.n + 1) = f.kl

section Completed

variable {p : Permute} {scale : Nat} {s : State}

/-- Element `i` of SRC2 is that of the register or of the bytes in memory (R31, R65, R92). -/
theorem Permute.elem_data (hw : 8 ∣ p.form.w) (hb : p.bcast = true → p.form.w = 32) {i : Nat}
    (hi : i < p.form.kl) :
    elem (p.data scale s) p.form.w i =
      dataLane s p.form.w p.legacy scale p.len p.bcast p.src2 i := by
  have hbits : p.form.w * i + p.form.w ≤ p.form.vl := Nat.mul_le_mul_left p.form.w hi
  cases hsrc : p.src2 with
  | reg r =>
    simp only [Permute.data, dataLane, hsrc]
    exact elem_setWidth _ _ hbits
  | mem m =>
    cases hbc : p.bcast with
    | true =>
      have hw4 : p.form.w / 8 = 4 := by rw [hb hbc]
      simp only [Permute.data, dataLane, Permute.next, hsrc, hbc, if_true, elem_pack _ _ _ hi]
      rw [hw4, BitVec.add_zero]
    | false =>
      have hvl : 8 * (p.form.vl / 8) = p.form.vl := Nat.mul_div_cancel' (hw.mul_right _)
      simp only [Permute.data, dataLane, Permute.next, hsrc, hbc, Bool.false_eq_true, if_false]
      rw [elem_setWidth _ _ hbits, Memory.elem_readLE _ _ hw (hvl.symm ▸ hbits)]

/-! ### A completed form (R90 to R97) -/

/-- The destination of a completed form holds the result of each element, and zero above (R93 to R96). -/
theorem Permute.destHolds_of_run_eq_next {t : State} (hf : p.form.Regular)
    (hb : p.bcast = true → p.form.w = 32) (h : p.run scale s = .next t) :
    DestHolds t p.dest p.form.w p.form.kl
      (resultLane s p.form.w p.form.n p.dest p.src1 p.aaa p.z
        (dataLane s p.form.w p.legacy scale p.len p.bcast p.src2)) := by
  obtain ⟨hw, hn, hkl⟩ := hf
  constructor
  · intro j hj
    rw [Permute.elem_dest_of_run_eq_next h hj, Permute.elem_data hw hb (Form.index_lt hkl _ j),
      Form.index_setWidth hn _ hj]
    simp [resultLane, State.selected]
  · intro b hvl
    obtain ⟨-, -, -, -, hp, rfl⟩ := Permute.run_eq_next.1 h
    obtain ⟨hmax, -⟩ := Permute.present_iff.1 hp
    exact Permute.getLsbD_complete_dest_of_vl_le hmax hvl

/-- With no fault and all it names present a form completes, with the result of each element in the
destination, `rip` advanced, and nothing else changed (R90). -/
theorem Permute.run_completes (hf : p.form.Regular) (hb : p.bcast = true → p.form.w = 32)
    (hud : p.ud = false) (hlen : p.len ≤ 15) (hts : s.cfg.ts = false)
    (hop : operandOk s p.legacy scale p.len p.bytes p.bcast p.src2 = true)
    (hpres : p.present s.cfg = true) :
    ∃ t, p.run scale s = .next t ∧
      DestHolds t p.dest p.form.w p.form.kl
        (resultLane s p.form.w p.form.n p.dest p.src1 p.aaa p.z
          (dataLane s p.form.w p.legacy scale p.len p.bcast p.src2)) ∧
      t.rip = s.rip + BitVec.ofNat 64 p.len ∧ Frame s t p.dest := by
  have hrun : p.run scale s = .next (p.complete scale s) :=
    Permute.run_eq_next.2 ⟨hud, hlen, hts, (p.operandFaults_eq_nil scale s).2 hop, hpres, rfl⟩
  exact ⟨_, hrun, Permute.destHolds_of_run_eq_next hf hb hrun, rfl, p.frame_complete scale s⟩

end Completed

/-! ### Legal, enabled forms (R51, R64, R65, R71, R132 to R135) -/

/-- The memory operand of a VEX form is a whole vector (R32). -/
theorem Permute.bytes_ofVex (f : Form) (ud : Bool) (e : VexFields) :
    (ofVex f ud e).bytes = f.vl / 8 := by
  simp [Permute.bytes, ofVex]

/-- The memory operand of an EVEX form is as large as the scale of its displacement (R32, R60). -/
theorem Permute.bytes_ofEvex (f : Form) (ud : Bool) (e : EvexFields) :
    (ofEvex f ud e).bytes = evexScale f e.b := rfl

/-- A legal EVEX form under its features and enabling has none of the #UD conditions of its row, at most 15
bytes and TS clear. -/
theorem no_fault_of_evexLegal {hasBroadcast features : Bool} {cfg : Launch} {e : EvexFields}
    (hen : evexEnabled features cfg = true) (hleg : evexLegal hasBroadcast e = true) :
    (evexIllegal hasBroadcast e || !features || !cfg.osAvx512Enabled) = false ∧ e.length ≤ 15 ∧
      cfg.ts = false := by
  simp only [evexEnabled, evexLegal, Bool.and_eq_true, Bool.or_eq_true, Bool.not_eq_true',
    bne_iff_ne, decide_eq_true_eq] at hen hleg
  obtain ⟨⟨hfeat, hos⟩, hts⟩ := hen
  obtain ⟨⟨⟨hlegacy, hb⟩, hz⟩, hlen⟩ := hleg
  refine ⟨?_, hlen, hts⟩
  simpa [evexIllegal, hlegacy, hfeat, hos, imp_iff_not_or] using And.intro hb hz

/-- The features of an enabled EVEX form are there (R132). -/
theorem features_of_evexEnabled {features : Bool} {cfg : Launch}
    (h : evexEnabled features cfg = true) : features = true := by
  simp only [evexEnabled, Bool.and_eq_true] at h
  exact h.1.1

/-- A legal, enabled EVEX form, whose operand is a register or can be read, completes on a machine of R5's
sizes (R90 to R97). -/
theorem run_ofEvex_completes {f : Form} {hasBroadcast features : Bool} {e : EvexFields} {s : State}
    (hf : f.Regular) (hb : e.b = true → f.w = 32) (hpres : ∀ ud, (ofEvex f ud e).present s.cfg = true)
    (hen : evexEnabled features s.cfg = true) (hleg : evexLegal hasBroadcast e = true)
    (hop : operandOk s e.legacy (evexScale f e.b) e.length (evexScale f e.b) e.b e.src2 = true) :
    ∃ t, (ofEvex f (evexIllegal hasBroadcast e || !features || !s.cfg.osAvx512Enabled) e).run
        (evexScale f e.b) s = .next t ∧
      DestHolds t e.dest f.w f.kl
        (resultLane s f.w f.n e.dest e.src1 e.aaa e.z
          (dataLane s f.w e.legacy (evexScale f e.b) e.length e.b e.src2)) ∧
      t.rip = s.rip + BitVec.ofNat 64 e.length ∧ Frame s t e.dest := by
  obtain ⟨hud, hlen, hts⟩ := no_fault_of_evexLegal hen hleg
  exact Permute.run_completes (p := ofEvex f _ e) hf hb hud hlen hts hop (hpres _)

end Sys2Proof.Machine
end

section
/-!
PROOFS. The statements that each form of VPERMD completes with the selected doublewords (R110 to R112).
-/

namespace Sys2Proof.Proofs

open Sys2Proof.Machine Sys2Proof.Safety

/-- Settles O10: on R5's sizes the VEX form has all it names. -/
theorem vpermdVex256Completes : Obligations.VpermdVex256Completes := by
  intro e s hs hen hleg hop
  obtain ⟨hud, hlen, hts⟩ := reachesOperand_iff.1 (reachesOperand_vpermdVex256 hen hleg)
  have hf : vpermd256.Regular := by decide
  refine Permute.run_completes (p := ofVex vpermd256 (udVpermdVex256 s.cfg e) e) hf
    (fun _ => rfl) hud hlen hts ?_ (present_ofVex hs (by decide))
  rw [Permute.bytes_ofVex]
  exact hop

/-- Settles O11: with AVX512F, R5's sizes give an EVEX form all it names. -/
theorem vpermdEvex256Completes : Obligations.VpermdEvex256Completes := by
  intro e s hs hen hleg hop
  have hflag : s.cfg.hasAvx512f = true := (Bool.and_eq_true_iff.1 (features_of_evexEnabled hen)).1
  exact run_ofEvex_completes (f := vpermd256) (by decide) (fun _ => rfl)
    (fun _ => present_ofEvex hs (.inl hflag) (by decide) (.inl (by decide))) hen hleg hop

/-- Settles O12: with AVX512F, R5's sizes give an EVEX form all it names. -/
theorem vpermdEvex512Completes : Obligations.VpermdEvex512Completes := by
  intro e s hs hen hleg hop
  exact run_ofEvex_completes (f := vpermd512) (by decide) (fun _ => rfl)
    (fun _ => present_ofEvex hs (.inl (features_of_evexEnabled hen)) (by decide) (.inl (by decide)))
    hen hleg hop

end Sys2Proof.Proofs
end

section
/-!
SUPPORT. The EVEX forms without a broadcast: their memory operand is always a whole vector (R32, R65).
-/

namespace Sys2Proof.Machine

open Sys2Proof.Safety

/-- An EVEX form that is legal without a broadcast has EVEX.b clear (R65). -/
theorem b_eq_false_of_evexLegal {e : EvexFields} (h : evexLegal false e = true) : e.b = false :=
  b_eq_false_of_evexIllegal (evexIllegal_eq_false_of_evexLegal false h).1

/-- The displacement of a whole vector operand is scaled by the vector's size (R60). -/
theorem evexScale_false (f : Form) : evexScale f false = f.vl / 8 := rfl

/-- A legal, enabled EVEX form without a broadcast and under AVX512BW, whose operand is a register or a whole
vector that can be read, completes on a machine of R5's sizes (R90 to R97). -/
theorem run_ofEvex_completes_without_broadcast {f : Form} {features : Bool} {e : EvexFields}
    {s : State} (hf : f.Regular) (hvl : f.vl ≤ 512) (hkl : f.kl ≤ 64)
    (hs : sizesSuffice s.cfg = true) (hbw : s.cfg.hasAvx512bw = true)
    (hen : evexEnabled features s.cfg = true) (hleg : evexLegal false e = true)
    (hop : operandOk s e.legacy (f.vl / 8) e.length (f.vl / 8) false e.src2 = true) :
    ∃ t, (ofEvex f (evexIllegal false e || !features || !s.cfg.osAvx512Enabled) e).run
        (evexScale f e.b) s = .next t ∧
      DestHolds t e.dest f.w f.kl
        (resultLane s f.w f.n e.dest e.src1 e.aaa e.z
          (dataLane s f.w e.legacy (f.vl / 8) e.length false e.src2)) ∧
      t.rip = s.rip + BitVec.ofNat 64 e.length ∧ Frame s t e.dest := by
  have hb : e.b = false := b_eq_false_of_evexLegal hleg
  have hpres (ud : Bool) : (ofEvex f ud e).present s.cfg = true :=
    present_ofEvex hs (.inr (.inr hbw)) hvl (.inr ⟨hbw, hkl⟩)
  have hcomp := run_ofEvex_completes hf (fun h => absurd (hb.symm.trans h) Bool.false_ne_true) hpres
    hen hleg
  rw [hb, evexScale_false] at hcomp ⊢
  exact hcomp hop

end Sys2Proof.Machine
end

section
/-!
PROOFS. The statements that each form of VPERMW completes with the selected words (R120 to R122).
-/

namespace Sys2Proof.Proofs

open Sys2Proof.Machine Sys2Proof.Safety

/-- Settles O13: VPERMW has no broadcast, and with AVX512BW the opmask registers reach every word. -/
theorem vpermwEvex128Completes : Obligations.VpermwEvex128Completes := by
  intro e s hs hen hleg hop
  have hbw : s.cfg.hasAvx512bw = true := (Bool.and_eq_true_iff.1 (features_of_evexEnabled hen)).1
  exact run_ofEvex_completes_without_broadcast (f := vpermw128) (by decide) (by decide) (by decide)
    hs hbw hen hleg hop

/-- Settles O14: VPERMW has no broadcast, and with AVX512BW the opmask registers reach every word. -/
theorem vpermwEvex256Completes : Obligations.VpermwEvex256Completes := by
  intro e s hs hen hleg hop
  have hbw : s.cfg.hasAvx512bw = true := (Bool.and_eq_true_iff.1 (features_of_evexEnabled hen)).1
  exact run_ofEvex_completes_without_broadcast (f := vpermw256) (by decide) (by decide) (by decide)
    hs hbw hen hleg hop

/-- Settles O15: VPERMW has no broadcast, and with AVX512BW the opmask registers reach every word. -/
theorem vpermwEvex512Completes : Obligations.VpermwEvex512Completes := by
  intro e s hs hen hleg hop
  exact run_ofEvex_completes_without_broadcast (f := vpermw512) (by decide) (by decide) (by decide)
    hs (features_of_evexEnabled hen) hen hleg hop

end Sys2Proof.Proofs
end

section
/-!
SUPPORT. Which row the decoder answers for VEX and EVEX bytes (R55, R63, R69).
-/

namespace Sys2Proof

/-- VEX bytes that are decoded are the row their length bit chooses (R55, R63). -/
theorem exists_vexRow_of_decodeVex {legacy : List LegacyPrefix} {p1 p2 op : Byte}
    {rest rest' : List Byte} {i : Instr} (h : decodeVex legacy (p1 :: p2 :: op :: rest) = .ok i rest') :
    ∃ e, i = vexRow (p2.extractLsb' 2 1) e := by
  simp only [decodeVex] at h
  split at h
  · split at h
    next e tail _ =>
      cases h
      exact ⟨e, rfl⟩
    next => cases h
  · cases h

/-- EVEX bytes that are decoded are the row their opcode and length bits choose (R55, R63). -/
theorem exists_evexRow_of_decodeEvex {legacy : List LegacyPrefix} {p0 p1 p2 op : Byte}
    {rest rest' : List Byte} {i : Instr}
    (h : decodeEvex legacy (p0 :: p1 :: p2 :: op :: rest) = .ok i rest') :
    ∃ e, (op = 0x36#8 ∧ i = evexVpermdRow (p2.extractLsb' 5 2) e) ∨
      (op = 0x8D#8 ∧ i = evexVpermwRow (p2.extractLsb' 5 2) e) := by
  simp only [decodeEvex] at h
  split at h
  · split at h
    next hd =>
      split at h
      next e tail _ =>
        cases h
        exact ⟨e, .inl ⟨hd.2, rfl⟩⟩
      next => cases h
    next =>
      split at h
      next hw =>
        split at h
        next e tail _ =>
          cases h
          exact ⟨e, .inr ⟨hw.2, rfl⟩⟩
        next => cases h
      next => cases h
  · cases h

end Sys2Proof
end

section
/-!
SUPPORT. What a row's missing feature flag or enabling means (R132, R134), and the faults of an instruction
without a memory operand (R137).
-/

namespace Sys2Proof.Machine

open Sys2Proof.Safety

/-- The #UD condition of a row, whose three parts are the encoding's, the feature flags' and the enabling's,
holds where a feature flag is missing (R132). -/
theorem ud_of_features_eq_false {illegal features enabled : Bool} (h : features = false) :
    (illegal || !features || !enabled) = true := by
  simp [h]

/-- The #UD condition of a row holds where its vector state is not enabled (R134). -/
theorem ud_of_enabled_eq_false {illegal features enabled : Bool} (h : enabled = false) :
    (illegal || !features || !enabled) = true := by
  simp [h]

/-- An instruction without a memory operand has no fault of the operand (R137). -/
theorem operandFaultsOf_eq_nil {i : Instr} (s : State) (h : memOf i = none) :
    operandFaultsOf s i = [] := by
  simp [operandFaultsOf, h]

end Sys2Proof.Machine
end

section
/-!
PROOFS. The statements about #UD by length bits, feature flags and enabling, #NM, and the order of the
faults (R131, R132, R134, R135, R137, R139).
-/

namespace Sys2Proof.Proofs

open Sys2Proof.Machine Sys2Proof.Safety

/-- Settles O32: the length bits choose the row, and two of the three rows have a #UD condition in every
state. -/
theorem lengthZeroOfVpermdRaisesUD : Obligations.LengthZeroOfVpermdRaisesUD := by
  refine ⟨fun legacy p1 p2 rest rest' i s hdec hl hlen => ?_,
    fun legacy p0 p1 p2 rest rest' i s hdec hll hlen => ?_,
    fun legacy p0 p1 p2 rest rest' i hdec hll => ?_⟩
  · obtain ⟨e, rfl⟩ := exists_vexRow_of_decodeVex (decode_vex legacy _ ▸ hdec)
    have hrow : vexRow (p2.extractLsb' 2 1) e = .udVpermdVexL0 e := by
      rw [extractLsb'_one, hl]
      rfl
    rw [hrow] at hlen ⊢
    exact ⟨⟨e, rfl⟩, exec_of_raisesUD rfl hlen⟩
  · obtain ⟨e, ⟨-, rfl⟩ | ⟨hop, -⟩⟩ := exists_evexRow_of_decodeEvex (decode_evex legacy _ ▸ hdec)
    · rw [hll] at hlen ⊢
      exact ⟨⟨e, rfl⟩, exec_of_raisesUD rfl hlen⟩
    · exact absurd hop (by decide)
  · obtain ⟨e, ⟨hop, -⟩ | ⟨-, rfl⟩⟩ := exists_evexRow_of_decodeEvex (decode_evex legacy _ ▸ hdec)
    · exact absurd hop (by decide)
    · rw [hll]
      exact ⟨e, rfl⟩

/-- Settles O36: each row's #UD condition names the row's feature flags. -/
theorem missingFeatureFlagRaisesUD : Obligations.MissingFeatureFlagRaisesUD := by
  have both {a b : Bool} (h : ¬(a = true ∧ b = true)) : (a && b) = false := by
    rwa [← Bool.and_eq_true, Bool.not_eq_true] at h
  intro v e s
  refine ⟨fun h hlen => ?vpermdVex256, fun h hlen => ?vpermdEvex256, fun h hlen => ?vpermdEvex512,
    fun h hlen => ⟨?vpermwEvex128, ?vpermwEvex256⟩, fun h hlen => ?vpermwEvex512⟩
  case vpermdVex256 => exact exec_of_raisesUD (ud_of_features_eq_false h) hlen
  case vpermdEvex256 => exact exec_of_raisesUD (ud_of_features_eq_false (both h)) hlen
  case vpermdEvex512 => exact exec_of_raisesUD (ud_of_features_eq_false h) hlen
  case vpermwEvex128 => exact exec_of_raisesUD (ud_of_features_eq_false (both h)) hlen
  case vpermwEvex256 => exact exec_of_raisesUD (ud_of_features_eq_false (both h)) hlen
  case vpermwEvex512 => exact exec_of_raisesUD (ud_of_features_eq_false h) hlen

/-- Settles O37: each row's #UD condition names the enabling of its vector state. -/
theorem missingEnablingRaisesUD : Obligations.MissingEnablingRaisesUD := by
  intro v e s
  refine ⟨fun h hlen => exec_of_raisesUD (ud_of_enabled_eq_false h) hlen, fun h hlen => ?_⟩
  refine ⟨?vpermdEvex256, ?vpermdEvex512, ?vpermwEvex128, ?vpermwEvex256, ?vpermwEvex512⟩
  all_goals exact exec_of_raisesUD (ud_of_enabled_eq_false h) hlen

/-- Settles O38: of the faults before the operand's only #NM applies. -/
theorem taskSwitchedRaisesNM : Obligations.TaskSwitchedRaisesNM := by
  intro i s hu hlen hts
  have hreach : ¬ reachesOperand s i = true := by simp [reachesOperand_iff, hts]
  obtain ⟨f, hf, ⟨-, hud⟩ | ⟨-, hlong⟩ | ⟨rfl, -⟩⟩ := exec_of_not_reachesOperand hreach
  · exact absurd (hu.symm.trans hud) Bool.false_ne_true
  · exact absurd hlong (Nat.not_lt.2 hlen)
  · exact hf

/-- Settles O40: the faults before the operand's are #UD, #GP(0) and #NM. -/
theorem operandFaultsComeLast : Obligations.OperandFaultsComeLast := by
  have reaches {i : Instr} {s : State} {f : Fault} (h : exec i s = .fault f)
      (hud : f ≠ .invalidOpcode) (hgp : f ≠ .generalProtection) (hnm : f ≠ .deviceNotAvailable) :
      reachesOperand s i = true := by
    obtain ⟨hf, -⟩ | ⟨hf, -⟩ | ⟨hf, -⟩ | ⟨hreach, -⟩ := exec_eq_fault h
    · exact absurd hf hud
    · exact absurd hf hgp
    · exact absurd hf hnm
    · exact hreach
  rintro i s c (h | h | h)
  · exact reaches h nofun nofun nofun
  · exact reaches h nofun nofun nofun
  · exact reaches h nofun nofun nofun

/-- Settles O46: with no memory operand there is no fault of the operand to raise. -/
theorem registerOperandRaisesNoMemoryFault : Obligations.RegisterOperandRaisesNoMemoryFault := by
  intro i s f hm h
  obtain ⟨hud, -⟩ | hlong | ⟨hnm, -⟩ | ⟨-, hmem⟩ := exec_eq_fault h
  · exact .inl hud
  · exact .inr (.inr hlong)
  · exact .inr (.inl hnm)
  · rw [operandFaultsOf_eq_nil s hm] at hmem
    cases hmem

end Sys2Proof.Proofs
end

section
/-!
SUPPORT. What the launch state reads as (log entries 2 and 3), and that its absent state is zero (log entry 20).
-/

namespace Sys2Proof.Machine

open Sys2Proof.Safety

/-- Every vector register of the launch state is zero. -/
@[simp] theorem State.readZmm_reset (r : BitVec 5) : State.reset.readZmm r = 0#512 := by
  simp [State.readZmm, State.reset]

/-- Every opmask register of the launch state is zero. -/
@[simp] theorem State.readMask_reset (a : BitVec 3) : State.reset.readMask a = 0#64 := by
  simp [State.readMask, State.reset]

/-- Every general register of the launch state but RDX is zero. -/
theorem State.readGpr_reset {g : BitVec 4} (hg : g ≠ 2#4) : State.reset.readGpr g = 0#64 := by
  have hne : 2 ≠ g.toNat := fun h => hg (BitVec.eq_of_toNat_eq h.symm)
  simp [State.readGpr, State.reset, Vector.getElem_set_ne, hne]

/-- Every byte of the launch state's memory reads as zero. -/
@[simp] theorem State.readByte_reset (a : Nat) : State.reset.mem.readByte a = 0#8 := rfl

/-- A state whose vector and opmask registers are all zero has absent state zero, whatever its sizes. -/
theorem absentIsZero_of_registers_zero {s : State} (hz : ∀ r, s.readZmm r = 0#512)
    (hk : ∀ a, s.readMask a = 0#64) : AbsentIsZero s :=
  ⟨fun r b _ => by rw [hz, BitVec.getLsbD_zero], fun r _ => hz r,
    fun a j _ => by rw [hk, BitVec.getLsbD_zero], fun a _ => hk a⟩

/-- The first fetch of the launch state lies below CODE_END. -/
theorem State.reset_rip_le_codeEnd : State.reset.rip.toNat ≤ State.reset.cfg.codeEnd.toNat := by
  decide

/-- The launch state meets the invariant of a run. -/
theorem State.reset_inv : Inv State.reset :=
  ⟨State.reset_mem_wf, State.reset_rip_le_codeEnd,
    absentIsZero_of_registers_zero State.readZmm_reset State.readMask_reset⟩

end Sys2Proof.Machine
end

section
/-!
PROOFS. The statement about the launch state (log entries 1 to 4).
-/

namespace Sys2Proof.Proofs

open Sys2Proof.Machine Sys2Proof.Safety

/-- Settles O55: the launch state meets the invariant, and each read of it is zero by its own lemma. -/
theorem resetMeetsTheInvariant : Obligations.ResetMeetsTheInvariant :=
  ⟨State.reset_inv, State.readZmm_reset, State.readMask_reset, fun _ hg => State.readGpr_reset hg,
    State.readByte_reset⟩

end Sys2Proof.Proofs
end
